-- ==== Sys2Proof/Word.lean ====
section
/-! DEFINITION. The word types of the block (10_state R21): bytes, 32-bit command words, 64-bit data words. -/

namespace Sys2Proof

/-- One byte of buffer memory or of `PAD`. -/
abbrev Byte := BitVec 8

/-- A 64-bit value: `OPA`, `OPB`, `RSP_DATA`, `RSP_AUX`, `POS`, a window (00_scope R5 `DATA_W`, `POS_W`). -/
abbrev Word := BitVec 64

/-- A command word, the port `CMD` (30_encoding R60). -/
abbrev CmdWord := BitVec 32

/-- A context index as the command word carries it: a 4-bit natural (30_encoding R61, R65). -/
abbrev CtxId := Fin 16

end Sys2Proof
end

