-- ==== Sys2Proof/Config.lean ====
section
/-! DEFINITION. What an implementation fixes: the parameters of 00_scope R5, and the free values, which no
definition gives. -/

namespace Sys2Proof.Config

/-- Minimum physical buffer length and length of the owned copy, in bytes (R5 `PAD_BYTES`). -/
abbrev padBytes : Nat := 8

/-- Bytes of one window load (R5 `LOAD_BYTES`). -/
abbrev loadBytes : Nat := 8

/-- Granule of the unclamped window offset, in bytes (R5 `WORD_BYTES`). -/
abbrev wordBytes : Nat := 4

/-- Largest width of the 32-bit reads (R5 `MAX_W32`). -/
abbrev maxW32 : Nat := 32

/-- Largest width of the 64-bit reads (R5 `MAX_W64`). -/
abbrev maxW64 : Nat := 64

/-- The field widths that R5 leaves OPEN. State carries them, so that every statement over all states
is a statement for every legal value (log 1, DESIGN CHOICE). -/
structure Widths where
  /-- Width of `LSIZE` and `LIMIT` (R5 `LEN_W`). -/
  lenW : Nat
  /-- Width of a buffer-memory address (R5 `ADDR_W`). -/
  addrW : Nat
deriving DecidableEq, Repr

/-- All the OPEN parameters of R5 that a rule depends on. `LATENCY` has no value and no rule uses it (R188). -/
structure Params where
  nCtx : Nat
  widths : Widths
deriving DecidableEq, Repr

/-- The legal values of R5. -/
def Params.legal (p : Params) : Bool :=
  decide (1 ≤ p.nCtx ∧ p.nCtx ≤ 16 ∧ 4 ≤ p.widths.lenW ∧ p.widths.lenW ≤ 60 ∧
    1 ≤ p.widths.addrW ∧ p.widths.addrW ≤ 64)

/-- The parameters of `State.reset`: the ones the test vectors of 95_test_vectors use (log 1, DESIGN CHOICE). -/
def defaultParams : Params := { nCtx := 4, widths := { lenW := 16, addrW := 32 } }

/-- What a byte of buffer memory that nothing has written reads as (log 4, DESIGN CHOICE, unsafe). -/
def unlistedByte : Byte := 0

/-- The free bytes of 20_memory R57 and 70_reset R180, R186: the value of a byte the spec does not give, one
for each draw number (log 11). No body: nothing is known of it. -/
opaque freeByte : Nat → Byte

/-- The free 64-bit values of 70_reset R180 (log 3, log 11). No body: nothing is known of it. -/
opaque freeWord : Nat → Word

end Sys2Proof.Config
end

