-- ==== Sys2Proof/Syntax.lean ====
section
/-! DEFINITION. The command set: transactions, formats, the sixteen commands of 30_encoding R66, and the
pseudo-instructions of R69. -/

namespace Sys2Proof

/-- One command transaction on the command port (30_encoding R60). -/
structure Transaction where
  cmd : CmdWord
  opa : Word
  opb : Word
deriving DecidableEq, Repr

/-- The four formats of the command word (30_encoding R63). -/
inductive Format where
  | n | w32 | w64 | p
deriving DecidableEq, Repr

/-- The commands, one constructor per row of the opcode table (30_encoding R66). A width is the natural
`bits = WM1 + 1` (R64). -/
inductive Instr where
  /-- `INIT c<n>, <base>, <len>` (R80): `OPA` = base, `OPB` = len. -/
  | init (ctx : CtxId) (base len : Word)
  /-- `RESET c<n>` (R136). -/
  | reset (ctx : CtxId)
  /-- `PEEK c<dst>, c<src>` (R134). -/
  | peek (dst src : CtxId)
  /-- `SKIP c<n>, <count>` (R130): `OPA` = count. -/
  | skip (ctx : CtxId) (count : Word)
  /-- `RDU32 c<n>, <bits>` (R92). -/
  | rdu32 (ctx : CtxId) (bits : Nat)
  /-- `RDS32 c<n>, <bits>` (R94). -/
  | rds32 (ctx : CtxId) (bits : Nat)
  /-- `RDU64 c<n>, <bits>` (R96). -/
  | rdu64 (ctx : CtxId) (bits : Nat)
  /-- `RDS64 c<n>, <bits>` (R98). -/
  | rds64 (ctx : CtxId) (bits : Nat)
  /-- `RDBIT c<n>` (R99). -/
  | rdbit (ctx : CtxId)
  /-- `RDLE16 c<n>` (R121). -/
  | rdle16 (ctx : CtxId)
  /-- `RDLE32 c<n>` (R122). -/
  | rdle32 (ctx : CtxId)
  /-- `RDLE64 c<n>` (R123). -/
  | rdle64 (ctx : CtxId)
  /-- `POS c<n>` (R131). -/
  | pos (ctx : CtxId)
  /-- `REMBITS c<n>` (R132). -/
  | rembits (ctx : CtxId)
  /-- `REMBYTES c<n>` (R137). -/
  | rembytes (ctx : CtxId)
  /-- `CHECK c<n>` (R139). -/
  | check (ctx : CtxId)
deriving DecidableEq, Repr

/-- The pseudo-instructions of 30_encoding R69. -/
inductive Pseudo where
  | rdu1 | rdu8 | rdu16 | rdu32 | rdu64
  | rds1 | rds8 | rds16 | rds32 | rds64
deriving DecidableEq, Repr

/-- Why a command word is an illegal encoding: the two cases of 60_exceptions R161. -/
inductive DecodeError where
  /-- `w[7:0]` is not one of the sixteen opcodes. -/
  | unknownOpcode
  /-- A field that the format requires to be zero is not zero. -/
  | mustBeZero
deriving DecidableEq, Repr

end Sys2Proof
end

