-- ==== Sys2Proof/WellFormed.lean ====
section
/-! DEFINITION. Well-formed commands: the width domains of 30_encoding R64. Context indices are 4-bit by their type
and operands 64-bit by theirs, so the widths are all there is to check. -/

namespace Sys2Proof

/-- `1 ≤ bits ≤ max` (30_encoding R64). -/
def inWidth (max bits : Nat) : Bool := decide (1 ≤ bits ∧ bits ≤ max)

/-- The commands that have a command word: a 32-bit read takes 1 to 32 bits, a 64-bit read 1 to 64 (R64). -/
def Instr.wf : Instr → Bool
  | .init _ _ _ => true
  | .reset _ => true
  | .peek _ _ => true
  | .skip _ _ => true
  | .rdu32 _ bits => inWidth Config.maxW32 bits
  | .rds32 _ bits => inWidth Config.maxW32 bits
  | .rdu64 _ bits => inWidth Config.maxW64 bits
  | .rds64 _ bits => inWidth Config.maxW64 bits
  | .rdbit _ => true
  | .rdle16 _ => true
  | .rdle32 _ => true
  | .rdle64 _ => true
  | .pos _ => true
  | .rembits _ => true
  | .rembytes _ => true
  | .check _ => true

end Sys2Proof
end

