-- ==== Sys2Proof/Decode.lean ====
section
/-! DEFINITION. The decoder and the encoder of the command word (30_encoding R60 to R66), the table-word view of a
transaction, and the expansion of the pseudo-instructions (R69). -/

namespace Sys2Proof

/-! ## Fields of the command word (R61) -/

/-- `OPC = CMD[7:0]`. -/
def opcField (w : CmdWord) : BitVec 8 := w.extractLsb' 0 8

/-- `WM1 = CMD[13:8]`. -/
def wm1Field (w : CmdWord) : BitVec 6 := w.extractLsb' 8 6

/-- `RES0 = CMD[15:14]`. -/
def res0Field (w : CmdWord) : BitVec 2 := w.extractLsb' 14 2

/-- `CTX = CMD[19:16]`. -/
def ctxField (w : CmdWord) : CtxId := (w.extractLsb' 16 4).toFin

/-- `SCTX = CMD[23:20]`. -/
def sctxField (w : CmdWord) : CtxId := (w.extractLsb' 20 4).toFin

/-- `RES1 = CMD[31:24]`. -/
def res1Field (w : CmdWord) : BitVec 8 := w.extractLsb' 24 8

/-- Width assembly (R64): `bits = WM1 + 1`. -/
def widthOf (w : CmdWord) : Nat := (wm1Field w).toNat + 1

/-! ## The opcode map (R66) -/

/-- The mask of a format (R66): a word selects a row when `w AND mask` is the row's `OPC` with zeros above. -/
def Format.mask : Format → CmdWord
  | .n => 0xFFF0FFFF
  | .w32 => 0xFFF0E0FF
  | .w64 => 0xFFF0C0FF
  | .p => 0xFF00FFFF

/-- One row of the opcode map. -/
structure Row where
  opc : BitVec 8
  format : Format
  build : Transaction → Instr

/-- The row's `match` word: `OPC` in bits 7:0, every other masked bit 0 (R66). -/
def Row.matchWord (r : Row) : CmdWord := r.opc.setWidth 32

/-- `(w AND mask) = match` (R66). -/
def Row.selects (r : Row) (w : CmdWord) : Bool := (w &&& r.format.mask) == r.matchWord

/-- The opcode map of R66, row for row. -/
def rows : List Row :=
  [ ⟨0x01, .n, fun t => .init (ctxField t.cmd) t.opa t.opb⟩,
    ⟨0x02, .n, fun t => .reset (ctxField t.cmd)⟩,
    ⟨0x03, .p, fun t => .peek (ctxField t.cmd) (sctxField t.cmd)⟩,
    ⟨0x04, .n, fun t => .skip (ctxField t.cmd) t.opa⟩,
    ⟨0x08, .w32, fun t => .rdu32 (ctxField t.cmd) (widthOf t.cmd)⟩,
    ⟨0x09, .w32, fun t => .rds32 (ctxField t.cmd) (widthOf t.cmd)⟩,
    ⟨0x0A, .w64, fun t => .rdu64 (ctxField t.cmd) (widthOf t.cmd)⟩,
    ⟨0x0B, .w64, fun t => .rds64 (ctxField t.cmd) (widthOf t.cmd)⟩,
    ⟨0x0C, .n, fun t => .rdbit (ctxField t.cmd)⟩,
    ⟨0x10, .n, fun t => .rdle16 (ctxField t.cmd)⟩,
    ⟨0x11, .n, fun t => .rdle32 (ctxField t.cmd)⟩,
    ⟨0x12, .n, fun t => .rdle64 (ctxField t.cmd)⟩,
    ⟨0x18, .n, fun t => .pos (ctxField t.cmd)⟩,
    ⟨0x19, .n, fun t => .rembits (ctxField t.cmd)⟩,
    ⟨0x1A, .n, fun t => .rembytes (ctxField t.cmd)⟩,
    ⟨0x1B, .n, fun t => .check (ctxField t.cmd)⟩ ]

/-- Decoding (R60 to R66, 60_exceptions R161): the row of the opcode, then its must-be-zero fields. It reads only
the word, except that `INIT` and `SKIP` take their operands along (R60, R65). -/
def decode (t : Transaction) : Except DecodeError Instr :=
  match rows.find? (fun r => r.opc == opcField t.cmd) with
  | none => .error .unknownOpcode
  | some r => if r.selects t.cmd then .ok (r.build t) else .error .mustBeZero

/-! ## Transactions as opcode-table words -/

/-- A transaction as one number whose bits are counted on: `CMD` in bits 31:0, `OPA` in bits 95:32, `OPB` in bits
159:96, every bit above `nbits` zero. -/
def transactionOfTable (nbits w : Nat) : Transaction :=
  let v := w % 2 ^ min nbits 160
  { cmd := BitVec.ofNat 32 v, opa := BitVec.ofNat 64 (v / 2 ^ 32), opb := BitVec.ofNat 64 (v / 2 ^ 96) }

/-- The instruction the decoder reads from the table word `w` of `nbits` bits. -/
def decodeTableWord (nbits w : Nat) : Option Instr :=
  (decode (transactionOfTable nbits w)).toOption

/-! ## The encoder -/

/-- A command word laid out as R61 lists its fields, most significant first, with `RES1` and `RES0` zero. -/
def layout (sctx ctx : CtxId) (wm1 : BitVec 6) (opc : BitVec 8) : CmdWord :=
  (0#8 ++ BitVec.ofFin (w := 4) sctx ++ BitVec.ofFin (w := 4) ctx ++ 0#2 ++ wm1 ++ opc : BitVec 32)

/-- `WM1 = bits − 1` (R64, R68). -/
def wm1Of (bits : Nat) : BitVec 6 := BitVec.ofNat 6 (bits - 1)

/-- The command word of a command (the "Encoding" line of its rule). -/
def commandWord : Instr → CmdWord
  | .init c _ _ => layout 0 c 0 0x01
  | .reset c => layout 0 c 0 0x02
  | .peek d s => layout s d 0 0x03
  | .skip c _ => layout 0 c 0 0x04
  | .rdu32 c bits => layout 0 c (wm1Of bits) 0x08
  | .rds32 c bits => layout 0 c (wm1Of bits) 0x09
  | .rdu64 c bits => layout 0 c (wm1Of bits) 0x0A
  | .rds64 c bits => layout 0 c (wm1Of bits) 0x0B
  | .rdbit c => layout 0 c 0 0x0C
  | .rdle16 c => layout 0 c 0 0x10
  | .rdle32 c => layout 0 c 0 0x11
  | .rdle64 c => layout 0 c 0 0x12
  | .pos c => layout 0 c 0 0x18
  | .rembits c => layout 0 c 0 0x19
  | .rembytes c => layout 0 c 0 0x1A
  | .check c => layout 0 c 0 0x1B

/-- The operand `OPA` of a command: `INIT`'s base, `SKIP`'s count, 0 where the command ignores it (R60). -/
def operandA : Instr → Word
  | .init _ base _ => base
  | .skip _ count => count
  | .reset _ | .peek _ _ | .rdu32 _ _ | .rds32 _ _ | .rdu64 _ _ | .rds64 _ _ | .rdbit _ | .rdle16 _ | .rdle32 _
  | .rdle64 _ | .pos _ | .rembits _ | .rembytes _ | .check _ => 0

/-- The operand `OPB` of a command: `INIT`'s length, 0 where the command ignores it (R60). -/
def operandB : Instr → Word
  | .init _ _ len => len
  | .reset _ | .peek _ _ | .skip _ _ | .rdu32 _ _ | .rds32 _ _ | .rdu64 _ _ | .rds64 _ _ | .rdbit _ | .rdle16 _
  | .rdle32 _ | .rdle64 _ | .pos _ | .rembits _ | .rembytes _ | .check _ => 0

/-- The transaction that issues a command (R60). -/
def encode (i : Instr) : Transaction :=
  { cmd := commandWord i, opa := operandA i, opb := operandB i }

/-! ## Pseudo-instructions (R69) -/

/-- Each pseudo-instruction expands to one command. -/
def Pseudo.expand (c : CtxId) : Pseudo → Instr
  | .rdu1 => .rdu32 c 1
  | .rdu8 => .rdu32 c 8
  | .rdu16 => .rdu32 c 16
  | .rdu32 => .rdu32 c 32
  | .rdu64 => .rdu64 c 64
  | .rds1 => .rds32 c 1
  | .rds8 => .rds32 c 8
  | .rds16 => .rds32 c 16
  | .rds32 => .rds32 c 32
  | .rds64 => .rds64 c 64

end Sys2Proof
end

