-- ==== Sys2Proof/Machine/Datapath.lean ====
section
/-! DEFINITION. The barrel shifter (00_scope R9), the extension operators (R10), the extend transform (41_extraction
R97), the byte-swap network (42_endianness R120) and the position adder (10_state R31). -/

namespace Sys2Proof.Machine

/-- `SHL64` (R9): 0 from a shift of 64 on. -/
def shl64 (x : Word) (s : Nat) : Word := if s < 64 then x <<< s else 0

/-- `SRL64` (R9): zero fill, 0 from a shift of 64 on. -/
def srl64 (x : Word) (s : Nat) : Word := if s < 64 then x >>> s else 0

/-- `SRA64` (R9): sign fill; from a shift of 64 on, all bits are the sign. -/
def sra64 (x : Word) (s : Nat) : Word :=
  if s < 64 then x.sshiftRight s else if x.msb then BitVec.allOnes 64 else 0

/-- `zext_64(v[k−1:0])` (R10). -/
def zext64 (k : Nat) (v : Word) : Word := (v.setWidth k).setWidth 64

/-- `sext_64(v[k−1:0])` (R10). -/
def sext64 (k : Nat) (v : Word) : Word := (v.setWidth k).signExtend 64

/-- `Extend(v, w)` (41_extraction R97): `(v XOR m) −64 m` with the mask `m = SHL64(~0, w − 1)`. -/
def extend (v : Word) (w : Nat) : Word :=
  let m := shl64 (BitVec.allOnes 64) (w - 1)
  (v ^^^ m) - m

/-- `bswap16` (42_endianness R120). -/
def bswap16 (z : BitVec 16) : BitVec 16 := (z.extractLsb' 0 8 ++ z.extractLsb' 8 8 : BitVec 16)

/-- `bswap32` (R120): two 16-bit swaps, halves exchanged. -/
def bswap32 (y : BitVec 32) : BitVec 32 :=
  (bswap16 (y.extractLsb' 0 16) ++ bswap16 (y.extractLsb' 16 16) : BitVec 32)

/-- `bswap64` (R120): two 32-bit swaps, halves exchanged. -/
def bswap64 (x : Word) : Word :=
  (bswap32 (x.extractLsb' 0 32) ++ bswap32 (x.extractLsb' 32 32) : BitVec 64)

/-- `Adv(p, n) = min(p + n, 2^64 − 1)` (10_state R31). -/
def adv (p : Word) (n : Nat) : Word := BitVec.ofNat 64 (min (p.toNat + n) (2 ^ 64 - 1))

end Sys2Proof.Machine
end

