-- ==== Sys2Proof/Machine/State.lean ====
section
/-! DEFINITION. The state of the block and of its ports (10_state R20 to R36, 70_reset R180, R181), as plain data. -/

namespace Sys2Proof.Machine

/-- The status codes of a response (60_exceptions R160). -/
inductive Status where
  | ok | illegal | noctx | range
deriving DecidableEq, Repr

/-- A response transaction: `RSP_STATUS`, `RSP_DATA`, `RSP_AUX` (10_state R21). -/
structure Response where
  status : Status
  data : Word
  aux : Word
deriving DecidableEq, Repr

/-- The private store `PAD[0] .. PAD[7]` of a context (10_state R22, R28). -/
structure Pad where
  b0 : Byte
  b1 : Byte
  b2 : Byte
  b3 : Byte
  b4 : Byte
  b5 : Byte
  b6 : Byte
  b7 : Byte
deriving DecidableEq, Repr

/-- One cursor context (10_state R22). `LSIZE`, `LIMIT` and `BASE` are naturals (00_scope R8) whose widths
`LEN_W` and `ADDR_W` are parameters: that they fit is part of the invariant (log 18). -/
structure Context where
  /-- `VALID` (R23). -/
  valid : Bool
  /-- `POS`, in bits from the start of the buffer (R24). -/
  pos : Word
  /-- `LSIZE`, the logical size in bytes (R25). -/
  lsize : Nat
  /-- `LIMIT`, the safe skip limit in bytes (R26). -/
  limit : Nat
  /-- `BASE`, the buffer's byte address (R27). -/
  base : Nat
  /-- `PAD`, the owned copy (R28). -/
  pad : Pad
  /-- The MODEL's own field: the buffer-memory addresses that the host changed during this context's lifetime,
  in breach of 20_memory R57 (log 9). A read of one is a free draw. -/
  stale : List Nat
deriving DecidableEq, Repr

/-- What the host does at the block's ports, one event at a time (10_state R20, R21; log 5). -/
inductive HostEvent where
  /-- The host issues a command (R20, R60). -/
  | command (t : Transaction)
  /-- The host writes a byte of buffer memory; it is not yet visible on the memory port (70_reset R183, R186; log 8). -/
  | hostWrite (addr : Nat) (b : Byte)
  /-- Every write the host has issued becomes visible on the memory port (70_reset R183 step 2; log 8). -/
  | writesVisible
  /-- `RST` is asserted (70_reset R180). -/
  | rstAssert
  /-- `RST` is deasserted (70_reset R181). -/
  | rstDeassert
  /-- The host issues a command and `RST` is asserted while it is in progress, after its first `k` byte reads
  (70_reset R181; log 7). -/
  | cutCommand (t : Transaction) (k : Nat)
deriving DecidableEq, Repr

/-- The machine: the block's context bank, its ports, buffer memory, and the host's queued moves. -/
structure State where
  /-- `LEN_W` and `ADDR_W` (00_scope R5), never written. -/
  cfg : Config.Widths
  /-- `ctx[0] .. ctx[N_CTX − 1]` (10_state R22). Its length is `N_CTX` (R5). -/
  bank : List Context
  /-- The port `RST` (10_state R21): true while it is asserted. -/
  rst : Bool
  /-- The host's moves that are still to come, first one first (log 5). -/
  inbox : List HostEvent
  /-- The responses delivered, in order (10_state R21, 70_reset R187; log 12). -/
  responses : List Response
  /-- Buffer memory as the memory port sees it, in the canonical form of `Memory.wf` (20_memory R40; log 4). -/
  mem : List Host.Cell
  /-- The host's writes that are not yet visible on the memory port, oldest first (70_reset R183, R186; log 8). -/
  pending : List Host.Cell
  /-- The byte reads made on the memory port, in order (20_memory R41, R48; log 12). -/
  reads : List Nat
  /-- The MODEL's own field: how many free values have been drawn (log 11). -/
  draws : Nat
deriving DecidableEq, Repr

/-- Reasons to stop with a fault: none. The spec has no trap and no error that stops the block (60_exceptions
R164, R168), and its memory port never fails (20_memory R41). -/
inductive Fault where
deriving DecidableEq, Repr

/-- Reasons to refuse. -/
inductive Refusal where
  /-- Raised by an arm of `exec` whose instruction has no meaning yet: safe. No arm raises it now. -/
  | notModelled (mnemonic : String)
deriving DecidableEq, Repr

/-- The outcome of a command or of a step. -/
abbrev Result := Host.Outcome State Fault Refusal

/-- `N_CTX` (00_scope R5): the number of contexts in the bank. -/
abbrev State.nCtx (s : State) : Nat := s.bank.length

/-- The parameters of 00_scope R5 that the state carries. -/
abbrev State.params (s : State) : Config.Params := { nCtx := s.nCtx, widths := s.cfg }

/-- A `PAD` of zeros. -/
def Pad.zero : Pad := ⟨0, 0, 0, 0, 0, 0, 0, 0⟩

/-- A context after hardware reset in `State.reset`: `VALID = 0` (70_reset R180). The spec gives the other fields no
value: zero is the model's (log 2, DESIGN CHOICE, unsafe). -/
def Context.afterReset : Context :=
  { valid := false, pos := 0, lsize := 0, limit := 0, base := 0, pad := Pad.zero, stale := [] }

/-- The machine right after hardware reset, with `RST` deasserted, for the parameters `p` (70_reset R180, R181). -/
def State.resetWith (p : Config.Params) : State :=
  { cfg := p.widths
    bank := List.replicate p.nCtx Context.afterReset
    rst := false
    inbox := []
    responses := []
    mem := []
    pending := []
    reads := []
    draws := 0 }

/-- The machine right after hardware reset (70_reset R180) with the parameters of log 1. -/
def State.reset : State := State.resetWith Config.defaultParams

end Sys2Proof.Machine
end

