-- ==== Sys2Proof/Machine/Memory.lean ====
section
/-! DEFINITION. Buffer memory (20_memory R40, R41) as a canonical list of cells: addresses strictly rising, no cell that
holds what an unlisted address reads as. -/

namespace Sys2Proof.Machine

/-- The byte at address `a`; an unlisted address reads `Config.unlistedByte` (log 4). -/
def Memory.read (m : List Host.Cell) (a : Nat) : Byte :=
  match m with
  | [] => Config.unlistedByte
  | (k, v) :: rest => if k = a then v else Memory.read rest a

/-- Put a cell into the sorted list, or take the address's cell out where `b` is what it reads as unlisted. -/
def Memory.write (m : List Host.Cell) (a : Nat) (b : Byte) : List Host.Cell :=
  match m with
  | [] => if b = Config.unlistedByte then [] else [(a, b)]
  | (k, v) :: rest =>
    if a < k then (if b = Config.unlistedByte then (k, v) :: rest else (a, b) :: (k, v) :: rest)
    else if a = k then (if b = Config.unlistedByte then rest else (a, b) :: rest)
    else (k, v) :: Memory.write rest a b

/-- Addresses rise strictly from `lo` on, and no cell holds the unlisted byte. -/
def Memory.wfFrom (lo : Nat) (m : List Host.Cell) : Bool :=
  match m with
  | [] => true
  | (k, v) :: rest => decide (lo ≤ k) && decide (v ≠ Config.unlistedByte) && Memory.wfFrom (k + 1) rest

/-- The canonical form. -/
def Memory.wf (m : List Host.Cell) : Bool := Memory.wfFrom 0 m

/-- Every listed address lies below `bound`. -/
def Memory.below (bound : Nat) (m : List Host.Cell) : Bool := m.all fun c => decide (c.1 < bound)

/-- The host's writes `ws`, oldest first, land in memory. -/
def Memory.writeAll (m : List Host.Cell) (ws : List Host.Cell) : List Host.Cell :=
  ws.foldl (fun m w => Memory.write m w.1 w.2) m

end Sys2Proof.Machine
end

