-- ==== Sys2Proof/Machine/Flags.lean ====
section
/-! DEFINITION. The derived signals of a context (10_state R29): the block's only flag `OVF` among them (R34); and the codes of the
status port (60_exceptions R160). -/

namespace Sys2Proof.Machine

/-- `OWN(c)`: the context owns a padded copy (R29, R35). -/
def Context.own (c : Context) : Bool := decide (c.lsize < Config.padBytes)

/-- `PLEN(c) = LIMIT + 8`: the physical buffer length in bytes (R29). -/
def Context.plen (c : Context) : Nat := c.limit + Config.padBytes

/-- `LBITS(c) = LSIZE * 8`: the logical size in bits (R29). -/
def Context.lbits (c : Context) : Nat := c.lsize * 8

/-- `OVF(c) = (POS > LBITS)`: the overflow condition, recomputed, never stored (R29, R34). -/
def Context.ovf (c : Context) : Bool := decide (c.lbits < c.pos.toNat)

/-- The code of a status on the 2-bit port `RSP_STATUS` (60_exceptions R160, 10_state R21). -/
def Status.code : Status → BitVec 2
  | .ok => 0
  | .illegal => 1
  | .noctx => 2
  | .range => 3

end Sys2Proof.Machine
end

