-- ==== Sys2Proof/Machine/Operands.lean ====
section
/-! DEFINITION. Operand forms: context indices (30_encoding R65, 10_state R23), `INIT`'s base and length (R65), the
bytes of `PAD` (10_state R28). -/

namespace Sys2Proof.Machine

/-- `ctx[i]`, none where `i ≥ N_CTX` (R65). -/
def State.ctx? (s : State) (i : CtxId) : Option Context := s.bank[i.val]?

/-- The cursor a context holds: none where the index is out of range or `VALID = 0` (10_state R23). -/
def State.cursor? (s : State) (i : CtxId) : Option Context :=
  match s.ctx? i with
  | some c => if c.valid then some c else none
  | none => none

/-- `ctx[i] <- c` (00_scope R11). -/
def State.setCtx (s : State) (i : CtxId) (c : Context) : State :=
  { s with bank := s.bank.set i.val c }

/-- An address reduced to `ADDR_W` bits (20_memory R41, 30_encoding R65). -/
def State.addr (s : State) (a : Nat) : Nat := a % 2 ^ s.cfg.addrW

/-- `INIT`'s base: `OPA mod 2^ADDR_W` (30_encoding R65, 40_construction R80). -/
def State.baseOf (s : State) (opa : Word) : Nat := s.addr opa.toNat

/-- `INIT`'s length fits `LSIZE`: `OPB < 2^LEN_W` (30_encoding R65, 60_exceptions R163). -/
def State.lenFits (s : State) (opb : Word) : Bool := decide (opb.toNat < 2 ^ s.cfg.lenW)

/-- `PAD[j]` for `j` from 0 to 7 (10_state R28). No rule reads further; the model answers 0 there (log 19). -/
def Pad.get (p : Pad) : Nat → Byte
  | 0 => p.b0
  | 1 => p.b1
  | 2 => p.b2
  | 3 => p.b3
  | 4 => p.b4
  | 5 => p.b5
  | 6 => p.b6
  | 7 => p.b7
  | _ => 0

/-- The `PAD` whose byte `j` is `f j`. -/
def Pad.ofFn (f : Nat → Byte) : Pad := ⟨f 0, f 1, f 2, f 3, f 4, f 5, f 6, f 7⟩

end Sys2Proof.Machine
end

