-- ==== Sys2Proof/Machine/Ops.lean ====
section
/-! DEFINITION. The shared operations: the memory port and the window load (20_memory R41 to R43), the extraction datapath
(41_extraction R90, R91, R96), and completing a command, with a result or with an error (00_scope R11, 60_exceptions
R164). -/

namespace Sys2Proof.Machine

/-! ## Completing a command -/

/-- Deliver a response (10_state R21, 70_reset R187). -/
def State.deliver (s : State) (r : Response) : State := { s with responses := s.responses ++ [r] }

/-- `respond(data, aux)` (00_scope R11). -/
def State.respond (s : State) (data aux : Word) : Result := .next (s.deliver ⟨.ok, data, aux⟩)

/-- `raise Error(code)` (00_scope R11): the command responds `code, 0, 0` and has no other effect (60_exceptions R164).
This is the block's whole exception entry: it has no trap, saved state or vector (R168), and so no return from one. -/
def State.raise (s : State) (code : Status) : Result := .next (s.deliver ⟨code, 0, 0⟩)

/-- The context checks of 60_exceptions R162: run `k` on the cursor of context `i`, or raise `NOCTX`. -/
def State.withCursor (s : State) (i : CtxId) (k : Context → Result) : Result :=
  match s.cursor? i with
  | some c => k c
  | none => s.raise .noctx

/-! ## The memory port -/

/-- The byte buffer memory holds at `a mod 2^ADDR_W`, as the memory port sees it (20_memory R41). -/
def State.memByte (s : State) (a : Nat) : Byte := Memory.read s.mem (s.addr a)

/-- The spec does not fix what a read of `a` returns: the host changed the byte during the reading context's lifetime
(20_memory R57, `stale`, log 9), or wrote it and the write is not yet visible (70_reset R186, log 10). -/
def State.disturbed (s : State) (stale : List Nat) (a : Nat) : Bool :=
  stale.contains (s.addr a) || s.pending.any (fun w => w.1 == s.addr a)

/-- The byte a read of `a` returns (20_memory R41), a free draw where the host disturbed it (R57). -/
def State.readByte (s : State) (stale : List Nat) (a draw : Nat) : Byte :=
  if s.disturbed stale a then Config.freeByte draw else s.memByte a

/-- Record byte reads on the memory port, in order (20_memory R48). Each read has a draw number of its own. -/
def State.logReads (s : State) (addrs : List Nat) : State :=
  { s with reads := s.reads ++ addrs, draws := s.draws + addrs.length }

/-! ## The window load -/

/-- `PhysByte(c, j)` (20_memory R42): from `PAD` when owned, else a read of buffer memory, with its draw number. -/
def State.physByte (s : State) (c : Context) (j draw : Nat) : Byte :=
  if c.own then c.pad.get j else s.readByte c.stale (c.base + j) draw

/-- `Load64BE(c, off)` (20_memory R43): eight bytes, the one at the lowest offset most significant. -/
def State.load64BE (s : State) (c : Context) (off : Nat) : Word :=
  (s.physByte c (off + 0) (s.draws + 0) ++ s.physByte c (off + 1) (s.draws + 1) ++
    s.physByte c (off + 2) (s.draws + 2) ++ s.physByte c (off + 3) (s.draws + 3) ++
    s.physByte c (off + 4) (s.draws + 4) ++ s.physByte c (off + 5) (s.draws + 5) ++
    s.physByte c (off + 6) (s.draws + 6) ++ s.physByte c (off + 7) (s.draws + 7) : BitVec 64)

/-- The buffer-memory reads of one window load, ascending (20_memory R43, R48): none for an owned context. -/
def State.windowReads (s : State) (c : Context) (off : Nat) : List Nat :=
  if c.own then [] else (List.range Config.loadBytes).map fun k => s.addr (c.base + (off + k))

/-! ## The extraction datapath -/

/-- `WordOffset(c) = min((POS / 32) * 4, LIMIT)` (41_extraction R90). -/
def Context.wordOffset (c : Context) : Nat := min ((c.pos.toNat / 32) * Config.wordBytes) c.limit

/-- `c.POS <- Adv(c.POS, n)` (10_state R31). -/
def Context.advance (c : Context) (n : Nat) : Context := { c with pos := adv c.pos n }

/-- What an extraction gives: its value, the context with its position advanced, the state with its reads made. -/
structure Extraction where
  value : Word
  ctx : Context
  st : State
deriving DecidableEq, Repr

/-- `Extract(c, bits, signed)` (41_extraction R91), for `1 ≤ bits ≤ 32`. -/
def extract (s : State) (c : Context) (bits : Nat) (signed : Bool) : Extraction :=
  let wo := c.wordOffset
  let t := shl64 (s.load64BE c wo) (c.pos.toNat - wo * 8)
  { value := if signed then sra64 t (64 - bits) else srl64 t (64 - bits)
    ctx := c.advance bits
    st := s.logReads (s.windowReads c wo) }

/-- `U64(c, bits)` (41_extraction R96): the high `bits − 32` bits, then the low 32, each with a window of its own. -/
def u64 (s : State) (c : Context) (bits : Nat) : Extraction :=
  if 32 < bits then
    let hi := extract s c (bits - 32) false
    let lo := extract hi.st hi.ctx 32 false
    { value := shl64 hi.value 32 ||| lo.value, ctx := lo.ctx, st := lo.st }
  else extract s c bits false

/-- A read command ends: the context's new position is written and `data` is the response (41_extraction R92, R100). -/
def Extraction.finish (e : Extraction) (i : CtxId) (data : Word) : Result :=
  (e.st.setCtx i e.ctx).respond data 0

/-- The checks of a read with a width field: its width (30_encoding R64, `ILLEGAL`), then its context (`NOCTX`). No
command word carries a width that the first check turns away (log 13). -/
def State.withWidth (s : State) (max bits : Nat) (i : CtxId) (k : Context → Result) : Result :=
  if inWidth max bits then s.withCursor i k else s.raise .illegal

end Sys2Proof.Machine
end

