-- ==== Sys2Proof/Machine/Construct.lean ====
section
/-! DEFINITION. Construction: `INIT` (40_construction R80). -/

namespace Sys2Proof.Machine

/-- The byte `pad[j]` of an owned context of length `len` at `a` (R80): copied from buffer memory for `j < L`, else 0. -/
def State.padByte (s : State) (a len j : Nat) : Byte :=
  if j < len then s.readByte [] (a + j) (s.draws + j) else 0

/-- The buffer-memory reads of `INIT` (R80, 20_memory R48): `L` ascending reads when `L < 8`, else none. -/
def State.initReads (s : State) (a len : Nat) : List Nat :=
  if len < Config.padBytes then (List.range len).map fun j => s.addr (a + j) else []

/-- The context `INIT` writes for length `len` at `a` (R80): aliased when `L ≥ 8`, else owned. -/
def State.initContext (s : State) (a len : Nat) : Context :=
  { valid := true
    pos := 0
    lsize := len
    limit := if Config.padBytes ≤ len then len - Config.padBytes else 0
    base := a
    pad := if Config.padBytes ≤ len then Pad.zero else Pad.ofFn (s.padByte a len)
    stale := [] }

/-- `INIT c<n>, <base>, <len>` (R80): `NOCTX` if `CTX ≥ N_CTX`, then `RANGE` if `OPB ≥ 2^LEN_W`; a context with
`VALID = 0` is accepted (60_exceptions R162, R163, R165). -/
def execInit (ctx : CtxId) (base len : Word) (s : State) : Result :=
  match s.ctx? ctx with
  | none => s.raise .noctx
  | some _ =>
    if s.lenFits len then
      let a := s.baseOf base
      ((s.logReads (s.initReads a len.toNat)).setCtx ctx (s.initContext a len.toNat)).respond 0 0
    else s.raise .range

end Sys2Proof.Machine
end

