-- ==== Sys2Proof/Machine/LittleEndian.lean ====
section
/-! DEFINITION. Little-endian reads: `RDLE16`, `RDLE32`, `RDLE64` (42_endianness). -/

namespace Sys2Proof.Machine

/-- `RDLE16 c<n>` (R121). -/
def execRdle16 (ctx : CtxId) (s : State) : Result :=
  s.withCursor ctx fun c =>
    let r := extract s c 16 false
    r.finish ctx ((bswap16 (r.value.setWidth 16)).setWidth 64)

/-- `RDLE32 c<n>` (R122). -/
def execRdle32 (ctx : CtxId) (s : State) : Result :=
  s.withCursor ctx fun c =>
    let r := extract s c 32 false
    r.finish ctx ((bswap32 (r.value.setWidth 32)).setWidth 64)

/-- `RDLE64 c<n>` (R123). -/
def execRdle64 (ctx : CtxId) (s : State) : Result :=
  s.withCursor ctx fun c =>
    let r := u64 s c 64
    r.finish ctx (bswap64 r.value)

end Sys2Proof.Machine
end

