-- ==== Sys2Proof/Machine/Position.lean ====
section
/-! DEFINITION. Position, peek, reset, tail bytes and the overflow check: `SKIP`, `POS`, `REMBITS`, `PEEK`, `RESET`,
`REMBYTES`, `CHECK` (43_position). None of them reads buffer memory (20_memory R48). -/

namespace Sys2Proof.Machine

/-- `SKIP c<n>, <count>` (R130). -/
def execSkip (ctx : CtxId) (count : Word) (s : State) : Result :=
  s.withCursor ctx fun c => (s.setCtx ctx (c.advance count.toNat)).respond 0 0

/-- `POS c<n>` (R131). -/
def execPos (ctx : CtxId) (s : State) : Result :=
  s.withCursor ctx fun c => s.respond c.pos 0

/-- `LB − min(POS, LB)` with `LB = LSIZE * 8` (R132). -/
def Context.remBits (c : Context) : Nat := c.lbits - min c.pos.toNat c.lbits

/-- `REMBITS c<n>` (R132). -/
def execRembits (ctx : CtxId) (s : State) : Result :=
  s.withCursor ctx fun c => s.respond (BitVec.ofNat 64 c.remBits) 0

/-- `PEEK c<dst>, c<src>` (R134): `CTX` is checked before `SCTX` (60_exceptions R165); the destination need not be
valid. -/
def execPeek (dst src : CtxId) (s : State) : Result :=
  match s.ctx? dst with
  | none => s.raise .noctx
  | some _ => s.withCursor src fun c => (s.setCtx dst c).respond 0 0

/-- `RESET c<n>` (R136). -/
def execReset (ctx : CtxId) (s : State) : Result :=
  s.withCursor ctx fun c => (s.setCtx ctx { c with pos := 0 }).respond 0 0

/-- The view of `REMBYTES` (R137): start offset and length, (0, 0) when the start is at or past `LSIZE`. -/
def Context.tail (c : Context) : Nat × Nat :=
  let start := c.pos.toNat / 8
  if c.lsize ≤ start then (0, 0) else (start, c.plen - start)

/-- `REMBYTES c<n>` (R137). -/
def execRembytes (ctx : CtxId) (s : State) : Result :=
  s.withCursor ctx fun c => s.respond (BitVec.ofNat 64 c.tail.1) (BitVec.ofNat 64 c.tail.2)

/-- `CHECK c<n>` (R139). -/
def execCheck (ctx : CtxId) (s : State) : Result :=
  s.withCursor ctx fun c => s.respond (if c.ovf then 1 else 0) 0

end Sys2Proof.Machine
end

