-- ==== Sys2Proof/Machine/Reads.lean ====
section
/-! DEFINITION. Fixed-width big-endian reads: `RDU32`, `RDS32`, `RDU64`, `RDS64`, `RDBIT` (41_extraction). -/

namespace Sys2Proof.Machine

/-- `RDU32 c<n>, <bits>` (R92). -/
def execRdu32 (ctx : CtxId) (bits : Nat) (s : State) : Result :=
  s.withWidth Config.maxW32 bits ctx fun c =>
    let r := extract s c bits false
    r.finish ctx (zext64 32 r.value)

/-- `RDS32 c<n>, <bits>` (R94). -/
def execRds32 (ctx : CtxId) (bits : Nat) (s : State) : Result :=
  s.withWidth Config.maxW32 bits ctx fun c =>
    let r := extract s c bits true
    r.finish ctx (sext64 32 r.value)

/-- `RDU64 c<n>, <bits>` (R96). -/
def execRdu64 (ctx : CtxId) (bits : Nat) (s : State) : Result :=
  s.withWidth Config.maxW64 bits ctx fun c =>
    let r := u64 s c bits
    r.finish ctx r.value

/-- `RDS64 c<n>, <bits>` (R98). -/
def execRds64 (ctx : CtxId) (bits : Nat) (s : State) : Result :=
  s.withWidth Config.maxW64 bits ctx fun c =>
    let r := u64 s c bits
    r.finish ctx (extend r.value bits)

/-- `RDBIT c<n>` (R99). -/
def execRdbit (ctx : CtxId) (s : State) : Result :=
  s.withCursor ctx fun c =>
    let r := extract s c 1 false
    r.finish ctx r.value

end Sys2Proof.Machine
end

