-- ==== Sys2Proof/Machine/Dispatch.lean ====
section
/-! DEFINITION. The one match from commands to their meanings. -/

namespace Sys2Proof.Machine

/-- Perform one command (10_state R20: atomic, exactly one response). -/
def exec (i : Instr) (s : State) : Host.Outcome State Fault Refusal :=
  match i with
  | .init ctx base len => Sys2Proof.Machine.execInit ctx base len s
  | .reset ctx => Sys2Proof.Machine.execReset ctx s
  | .peek dst src => Sys2Proof.Machine.execPeek dst src s
  | .skip ctx count => Sys2Proof.Machine.execSkip ctx count s
  | .rdu32 ctx bits => Sys2Proof.Machine.execRdu32 ctx bits s
  | .rds32 ctx bits => Sys2Proof.Machine.execRds32 ctx bits s
  | .rdu64 ctx bits => Sys2Proof.Machine.execRdu64 ctx bits s
  | .rds64 ctx bits => Sys2Proof.Machine.execRds64 ctx bits s
  | .rdbit ctx => Sys2Proof.Machine.execRdbit ctx s
  | .rdle16 ctx => Sys2Proof.Machine.execRdle16 ctx s
  | .rdle32 ctx => Sys2Proof.Machine.execRdle32 ctx s
  | .rdle64 ctx => Sys2Proof.Machine.execRdle64 ctx s
  | .pos ctx => Sys2Proof.Machine.execPos ctx s
  | .rembits ctx => Sys2Proof.Machine.execRembits ctx s
  | .rembytes ctx => Sys2Proof.Machine.execRembytes ctx s
  | .check ctx => Sys2Proof.Machine.execCheck ctx s

end Sys2Proof.Machine
end

