-- ==== Sys2Proof/Machine/HostPort.lean ====
section
/-! DEFINITION. What the host's events do: commands (10_state R20, 60_exceptions R161), writes of buffer memory
(20_memory R57, 70_reset R183, R186) and hardware reset (70_reset R180, R181). -/

namespace Sys2Proof.Machine

/-! ## Commands -/

/-- The block takes a transaction: an illegal encoding completes with `ILLEGAL` (60_exceptions R161), any other is
performed. -/
def State.accept (s : State) (t : Transaction) : Result :=
  match Sys2Proof.decode t with
  | .ok i => exec i s
  | .error _ => s.raise .illegal

/-- A command is offered: not accepted while `RST` is asserted (70_reset R181; log 6). -/
def State.offer (s : State) (t : Transaction) : Result :=
  if s.rst then .next s else s.accept t

/-! ## Host writes of buffer memory -/

/-- `a` lies in the buffer `[BASE, BASE + LSIZE)`, taken modulo `2^addrW` (20_memory R50). -/
def Context.covers (addrW : Nat) (c : Context) (a : Nat) : Bool :=
  decide ((a + 2 ^ addrW - c.base) % 2 ^ addrW < c.lsize)

/-- Buffer memory at `a` changes: a valid aliased context whose buffer holds `a` notes the breach of R57 (log 9). -/
def Context.noteWrite (addrW : Nat) (c : Context) (a : Nat) : Context :=
  if c.valid && !c.own && c.covers addrW a then { c with stale := c.stale.insert a } else c

/-- The host writes a byte at `a mod 2^ADDR_W`: not yet visible (70_reset R183, R186; log 8). -/
def State.hostWrite (s : State) (a : Nat) (b : Byte) : State :=
  { s with pending := s.pending ++ [(s.addr a, b)] }

/-- The host's pending writes become visible: memory changes, and contexts note the changes (20_memory R57). -/
def State.makeVisible (s : State) : State :=
  { s with
    mem := Memory.writeAll s.mem s.pending
    bank := s.bank.map fun c => s.pending.foldl (fun c w => c.noteWrite s.cfg.addrW w.1) c
    pending := [] }

/-! ## Hardware reset -/

/-- A context after an `RST` event (70_reset R180): `VALID = 0`, every other field a free value that fits it, drawn
from number `k` on (log 3). -/
def Context.unspecified (w : Config.Widths) (k : Nat) : Context :=
  { valid := false
    pos := Config.freeWord k
    lsize := (Config.freeWord (k + 1)).toNat % 2 ^ w.lenW
    limit := (Config.freeWord (k + 2)).toNat % 2 ^ w.lenW
    base := (Config.freeWord (k + 3)).toNat % 2 ^ w.addrW
    pad := Pad.ofFn fun j => Config.freeByte (k + 4 + j)
    stale := [] }

/-- How many draws `Context.unspecified` takes. -/
def drawsPerContext : Nat := 12

/-- `RST` is asserted (70_reset R180): every context loses its cursor. No byte is read, no response delivered. -/
def State.hardwareReset (s : State) : State :=
  { s with
    rst := true
    bank := (List.range s.nCtx).map fun i => Context.unspecified s.cfg (s.draws + drawsPerContext * i)
    draws := s.draws + drawsPerContext * s.nCtx }

/-- `RST` is asserted during the command `t`, after its first `k` byte reads (70_reset R181): its response is not
delivered, its effect on the contexts is erased, the reads made stay made (log 7). -/
def State.cutOff (s : State) (t : Transaction) (k : Nat) : Result :=
  match s.offer t with
  | .next u =>
    .next (State.hardwareReset { s with reads := s.reads ++ (u.reads.drop s.reads.length).take k, draws := u.draws })
  | .fault r => .fault r
  | .refused r => .refused r

/-! ## One event -/

/-- What one event of the host does (10_state R20; log 5). -/
def State.handle (s : State) (e : HostEvent) : Result :=
  match e with
  | .command t => s.offer t
  | .hostWrite a b => .next (s.hostWrite a b)
  | .writesVisible => .next s.makeVisible
  | .rstAssert => .next s.hardwareReset
  | .rstDeassert => .next { s with rst := false }
  | .cutCommand t k => s.cutOff t k

end Sys2Proof.Machine
end

