-- ==== Sys2Proof/Machine/Step.lean ====
section
/-! DEFINITION. One step: the host's next event, taken from the head of the queue. -/

namespace Sys2Proof.Machine

/-- The block takes the host's next event; with none queued it is idle and holds its state (10_state R20,
60_exceptions R174; log 5). -/
def step (s : State) : Host.Outcome State Fault Refusal :=
  match s.inbox with
  | [] => .next s
  | e :: rest => State.handle { s with inbox := rest } e

/-- The host issues the command whose table word is `w` as the very next event, with `RST` deasserted (log 14). -/
def State.withFetchWord (s : State) (nbits w : Nat) : State :=
  { s with inbox := .command (Sys2Proof.transactionOfTable nbits w) :: s.inbox, rst := false }

end Sys2Proof.Machine
end

