-- ==== Sys2Proof/Machine/Assembler.lean ====
section
/-! DEFINITION. The assembler's line syntax (30_encoding R68) and its pseudo-instructions (R69), on lists of characters.
No machine definition uses it. -/

namespace Sys2Proof.Asm

/-- A blank between tokens (log 20). -/
def isBlank (c : Char) : Bool := c == ' ' || c == '\t'

/-- Drop blanks at both ends. -/
def trim (cs : List Char) : List Char := ((cs.dropWhile isBlank).reverse.dropWhile isBlank).reverse

/-- A `;` starts a comment (R68). -/
def stripComment (cs : List Char) : List Char := cs.takeWhile (· != ';')

/-- Cut a list at commas. -/
def splitCommas : List Char → List (List Char)
  | [] => [[]]
  | ',' :: rest => [] :: splitCommas rest
  | c :: rest =>
    match splitCommas rest with
    | [] => [[c]]
    | p :: ps => (c :: p) :: ps

/-- A decimal digit's value. -/
def decDigit (c : Char) : Option Nat :=
  if '0' ≤ c ∧ c ≤ '9' then some (c.toNat - '0'.toNat) else none

/-- A hexadecimal digit's value, in either case (log 20). -/
def hexDigit (c : Char) : Option Nat :=
  if '0' ≤ c ∧ c ≤ '9' then some (c.toNat - '0'.toNat)
  else if 'a' ≤ c ∧ c ≤ 'f' then some (c.toNat - 'a'.toNat + 10)
  else if 'A' ≤ c ∧ c ≤ 'F' then some (c.toNat - 'A'.toNat + 10)
  else none

/-- Digits to a natural, most significant first. -/
def digits (value : Char → Option Nat) (base acc : Nat) : List Char → Option Nat
  | [] => some acc
  | c :: rest =>
    match value c with
    | some d => digits value base (acc * base + d) rest
    | none => none

/-- A decimal natural (R68). -/
def decimal : List Char → Option Nat
  | [] => none
  | c :: rest => digits decDigit 10 0 (c :: rest)

/-- A numeric literal: decimal or `0x` hexadecimal (R68), which fits the 64-bit operand port. -/
def literal (cs : List Char) : Option Word :=
  let n := match cs with
    | '0' :: 'x' :: c :: rest => digits hexDigit 16 0 (c :: rest)
    | cs => decimal cs
  match n with
  | some v => if v < 2 ^ 64 then some (BitVec.ofNat 64 v) else none
  | none => none

/-- A context `c<n>`, `n` decimal from 0 to 15 (R68). -/
def context : List Char → Option CtxId
  | 'c' :: rest =>
    match decimal rest with
    | some n => if h : n < 16 then some ⟨n, h⟩ else none
    | none => none
  | _ => none

/-- A width operand from 1 to `max`; without one, the full width `max` (R68). -/
def width (max : Nat) : List (List Char) → Option Nat
  | [] => some max
  | [w] =>
    match decimal w with
    | some n => if inWidth max n then some n else none
    | none => none
  | _ => none

/-- The commands with a context and a width. -/
def widthForm (mk : CtxId → Nat → Instr) (max : Nat) : List (List Char) → Option Instr
  | c :: rest => do return mk (← context c) (← width max rest)
  | _ => none

/-- The commands with a context alone. -/
def contextForm (mk : CtxId → Instr) : List (List Char) → Option Instr
  | [c] => do return mk (← context c)
  | _ => none

/-- `INIT`'s operands: context, base, length. -/
def initForm : List (List Char) → Option Instr
  | [c, a, l] => do return .init (← context c) (← literal a) (← literal l)
  | _ => none

/-- `PEEK`'s operands: destination and source context. -/
def peekForm : List (List Char) → Option Instr
  | [d, s] => do return .peek (← context d) (← context s)
  | _ => none

/-- `SKIP`'s operands: context and count. -/
def skipForm : List (List Char) → Option Instr
  | [c, n] => do return .skip (← context c) (← literal n)
  | _ => none

/-- The form of each mnemonic, in capitals (R68), pseudo-instructions last (R69). -/
def forms : List (String × (List (List Char) → Option Instr)) :=
  [ ("INIT", initForm), ("RESET", contextForm .reset), ("PEEK", peekForm), ("SKIP", skipForm),
    ("RDU32", widthForm .rdu32 Config.maxW32), ("RDS32", widthForm .rds32 Config.maxW32),
    ("RDU64", widthForm .rdu64 Config.maxW64), ("RDS64", widthForm .rds64 Config.maxW64),
    ("RDBIT", contextForm .rdbit), ("RDLE16", contextForm .rdle16), ("RDLE32", contextForm .rdle32),
    ("RDLE64", contextForm .rdle64), ("POS", contextForm .pos), ("REMBITS", contextForm .rembits),
    ("REMBYTES", contextForm .rembytes), ("CHECK", contextForm .check),
    ("RDU1", contextForm fun c => Pseudo.rdu1.expand c), ("RDU8", contextForm fun c => Pseudo.rdu8.expand c),
    ("RDU16", contextForm fun c => Pseudo.rdu16.expand c), ("RDS1", contextForm fun c => Pseudo.rds1.expand c),
    ("RDS8", contextForm fun c => Pseudo.rds8.expand c), ("RDS16", contextForm fun c => Pseudo.rds16.expand c) ]

/-- One line: comment off, mnemonic (in any case), operands between commas (R68). `none` where the assembler rejects the
line or the line holds no command. `RDU32`, `RDU64`, `RDS32`, `RDS64` without a width are the pseudo-instructions of
those names. -/
def assemble (line : List Char) : Option Instr :=
  let body := trim (stripComment line)
  let name := body.takeWhile (fun c => !isBlank c)
  let rest := trim (body.drop name.length)
  let args := match rest with
    | [] => []
    | c :: cs => (splitCommas (c :: cs)).map trim
  match forms.find? (fun f => f.1.toList == name.map Char.toUpper) with
  | some f => f.2 args
  | none => none

end Sys2Proof.Asm
end

