-- ==== Sys2Proof/Safety.lean ====
section
/-! DEFINITION. The terms the statements use: the buffer as a bit stream (00_scope R7, 41_extraction R93), the invariant
of a legal state (10_state R33), undisturbed contexts (20_memory R57), and frames. -/

namespace Sys2Proof.Machine

/-! ## The buffer as a bit stream -/

/-- The bytes of a context's physical buffer as they stand (20_memory R42). -/
def State.bufferByte (s : State) (c : Context) (j : Nat) : Byte :=
  if c.own then c.pad.get j else s.memByte (c.base + j)

/-- Buffer bit `p`: bit `7 − (p mod 8)` of the byte at offset `p / 8` (00_scope R7). -/
def State.bufferBit (s : State) (c : Context) (p : Nat) : Bool := (s.bufferByte c (p / 8)).getLsbD (7 - p % 8)

/-- The logical bit `lb(c, q)` (41_extraction R93): the buffer's bit before the logical end, 0 from there on. -/
def State.logicalBit (s : State) (c : Context) (q : Nat) : Bool :=
  if q < c.lbits then s.bufferBit c q else false

/-- The `n` logical bits from position `p`, the first one most significant: the sum of 41_extraction R93. -/
def State.streamValue (s : State) (c : Context) (p n : Nat) : Nat :=
  ∑ i ∈ Finset.range n, (s.logicalBit c (p + i)).toNat * 2 ^ (n - 1 - i)

/-! ## Legal states -/

/-- Every context field fits its width (10_state R22). -/
def Context.fits (w : Config.Widths) (c : Context) : Prop :=
  c.lsize < 2 ^ w.lenW ∧ c.limit < 2 ^ w.lenW ∧ c.base < 2 ^ w.addrW

/-- A cursor as `INIT` and `PEEK` leave it (10_state R26, R28, R33): `LIMIT` is `max(LSIZE, 8) − 8`, and a `PAD` byte
that holds none of an owned buffer's bytes is 0. -/
def Context.cursorOk (c : Context) : Prop :=
  c.limit = max c.lsize 8 - 8 ∧ ∀ j, j < 8 → (¬ c.own ∨ c.lsize ≤ j) → c.pad.get j = 0

/-- What holds of every legal state: legal parameters (00_scope R5), contexts that fit and, where valid, are cursors
(10_state R33), no cursor while `RST` is asserted (70_reset R180), and buffer memory in canonical form inside its address
space (20_memory R40). -/
structure State.Inv (s : State) : Prop where
  params : s.params.legal = true
  fits : ∀ c ∈ s.bank, c.fits s.cfg
  cursors : ∀ c ∈ s.bank, c.valid = true → c.cursorOk
  noCursorInReset : s.rst = true → ∀ c ∈ s.bank, c.valid = false
  memWf : Memory.wf s.mem = true
  memBelow : Memory.below (2 ^ s.cfg.addrW) s.mem = true
  pendingBelow : Memory.below (2 ^ s.cfg.addrW) s.pending = true

/-- The host has kept the duty of 20_memory R57 and 70_reset R183 toward the context: no byte of its aliased buffer
was changed in its lifetime, none waits to become visible. -/
def State.Undisturbed (s : State) (c : Context) : Prop :=
  c.own = false → ∀ j, j < c.lsize → s.disturbed c.stale (c.base + j) = false

/-- The byte reads of a read command of `bits` bits (20_memory R48): eight a window in ascending order when the context is
aliased, none when it is owned; one window at `WordOffset` up to 32 bits, above that a second one at the position
`bits − 32` further on (41_extraction R96). -/
def readsOf (s : State) (c : Context) (bits : Nat) : List Nat :=
  s.windowReads c c.wordOffset ++
    if 32 < bits then s.windowReads c (c.advance (bits - 32)).wordOffset else []

/-! ## Frames -/

/-- Everything outside the context bank, the response and read records and the draw counter is the same, and every byte of
buffer memory reads the same. -/
def State.SamePorts (s t : State) : Prop :=
  t.cfg = s.cfg ∧ t.rst = s.rst ∧ t.inbox = s.inbox ∧ t.pending = s.pending ∧
    (∀ a, t.memByte a = s.memByte a) ∧ t.nCtx = s.nCtx

/-- Every context but the one at `i` is the same. -/
def State.SameOthers (s t : State) (i : CtxId) : Prop := ∀ j : CtxId, j ≠ i → t.ctx? j = s.ctx? j

/-- The frame of a command that writes the one context `i`: all ports and all other contexts are unchanged. -/
def State.OnlyContext (s t : State) (i : CtxId) : Prop := s.SamePorts t ∧ s.SameOthers t i

/-- `t` is `s` with one more response and nothing else changed: no context field, no byte read, no draw. -/
def State.OnlyResponse (s t : State) (r : Response) : Prop := t = s.deliver r

/-- The context a command addresses by its `CTX` field (`PEEK`'s destination; 30_encoding R61). -/
def target (i : Instr) : CtxId :=
  match i with
  | .init c _ _ => c
  | .reset c => c
  | .peek d _ => d
  | .skip c _ => c
  | .rdu32 c _ => c
  | .rds32 c _ => c
  | .rdu64 c _ => c
  | .rds64 c _ => c
  | .rdbit c => c
  | .rdle16 c => c
  | .rdle32 c => c
  | .rdle64 c => c
  | .pos c => c
  | .rembits c => c
  | .rembytes c => c
  | .check c => c

/-- The bits a command consumes (20_memory R45, 43_position R130): the width of a read, the count of `SKIP`, none elsewhere. -/
def bitsConsumed (i : Instr) : Nat :=
  match i with
  | .skip _ count => count.toNat
  | .rdu32 _ bits => bits
  | .rds32 _ bits => bits
  | .rdu64 _ bits => bits
  | .rds64 _ bits => bits
  | .rdbit _ => 1
  | .rdle16 _ => 16
  | .rdle32 _ => 32
  | .rdle64 _ => 64
  | .init _ _ _ | .reset _ | .peek _ _ | .pos _ | .rembits _ | .rembytes _ | .check _ => 0

/-- The read commands: the ones that load windows (20_memory R48). -/
def isRead (i : Instr) : Bool :=
  match i with
  | .rdu32 _ _ | .rds32 _ _ | .rdu64 _ _ | .rds64 _ _ | .rdbit _ | .rdle16 _ | .rdle32 _ | .rdle64 _ => true
  | .init _ _ _ | .reset _ | .peek _ _ | .skip _ _ | .pos _ | .rembits _ | .rembytes _ | .check _ => false

/-- Context `i` does not exist, or holds no cursor: `VALID = 0` (10_state R23, 60_exceptions R162). -/
def State.HoldsNone (s : State) (i : CtxId) : Prop :=
  s.nCtx ≤ i.val ∨ ∃ c, s.ctx? i = some c ∧ c.valid = false

/-- Context `i` exists and holds the cursor `c`: `VALID = 1` (10_state R23). -/
def State.Holds (s : State) (i : CtxId) (c : Context) : Prop := s.ctx? i = some c ∧ c.valid = true

/-- The condition under which `NOCTX` is raised (60_exceptions R162). -/
def noCursorFor (i : Instr) (s : State) : Prop :=
  match i with
  | .init c _ _ => s.nCtx ≤ c.val
  | .peek d src => s.nCtx ≤ d.val ∨ s.HoldsNone src
  | .reset c | .skip c _ | .rdu32 c _ | .rds32 c _ | .rdu64 c _ | .rds64 c _ | .rdbit c | .rdle16 c | .rdle32 c
  | .rdle64 c | .pos c | .rembits c | .rembytes c | .check c => s.HoldsNone c

/-- The condition under which `RANGE` is raised, once the earlier checks have passed (60_exceptions R163). -/
def outOfRange (i : Instr) (s : State) : Prop :=
  match i with
  | .init _ _ len => 2 ^ s.cfg.lenW ≤ len.toNat
  | .reset _ | .peek _ _ | .skip _ _ | .rdu32 _ _ | .rds32 _ _ | .rdu64 _ _ | .rds64 _ _ | .rdbit _ | .rdle16 _
  | .rdle32 _ | .rdle64 _ | .pos _ | .rembits _ | .rembytes _ | .check _ => False

end Sys2Proof.Machine
end

