-- ==== Sys2Proof/Certificates/Slice0/Obligations.lean ====
section
/-! DEFINITION. The statements for the provers. Each docstring says which rule of spec/ a statement formalises. A
next state is always given by its whole effect: the response, the addressed context, the byte reads, and the frame
`State.OnlyContext` (every other context, all of buffer memory read byte by byte, the ports and the parameters). -/

open Sys2Proof Sys2Proof.Machine

/-! ## Encoding -/

/-- 30_encoding R61, R63, R64, R66: no bit of an encoding is dropped. Every well-formed command, with every operand at
every value, is what its transaction decodes to. -/
def Obligations.DecodeInvertsEncode : Prop :=
  ∀ i : Instr, i.wf = true → decode (encode i) = .ok i

/-- 30_encoding R60 to R66: each legal command word has one meaning. What a transaction decodes to is well-formed, encodes
to the same command word, and takes `OPA` and `OPB` along exactly where `INIT` and `SKIP` use them. -/
def Obligations.EncodeInvertsDecode : Prop :=
  ∀ (t : Transaction) (i : Instr), decode t = .ok i →
    i.wf = true ∧ commandWord i = t.cmd ∧
      (∀ c base len, i = .init c base len → base = t.opa ∧ len = t.opb) ∧
      (∀ c count, i = .skip c count → count = t.opa)

/-- 60_exceptions R161: the two cases of an illegal encoding, field by field: `RES1` and `RES0` always, `SCTX` outside
format P, `WM1` in formats N and P, `WM1[5]` in format W32. -/
def Obligations.DecoderRejectsExactlyIllegalWords : Prop :=
  ∀ t : Transaction,
    let opc := t.cmd.extractLsb' 0 8
    let listed : List (BitVec 8) :=
      [0x01, 0x02, 0x03, 0x04, 0x08, 0x09, 0x0A, 0x0B, 0x0C, 0x10, 0x11, 0x12, 0x18, 0x19, 0x1A, 0x1B]
    let reserved : Prop :=
      t.cmd.extractLsb' 24 8 ≠ 0 ∨ t.cmd.extractLsb' 14 2 ≠ 0 ∨
        (opc ≠ 0x03 ∧ t.cmd.extractLsb' 20 4 ≠ 0) ∨
        (opc ∉ ([0x08, 0x09, 0x0A, 0x0B] : List (BitVec 8)) ∧ t.cmd.extractLsb' 8 6 ≠ 0) ∨
        (opc ∈ ([0x08, 0x09] : List (BitVec 8)) ∧ t.cmd.extractLsb' 13 1 ≠ 0)
    (decode t = .error .unknownOpcode ↔ opc ∉ listed) ∧
      (decode t = .error .mustBeZero ↔ opc ∈ listed ∧ reserved)

/-- 30_encoding R60: `OPA` and `OPB` are ignored, never checked, outside `INIT` and `SKIP`: two transactions with the
same such command word decode alike. -/
def Obligations.OperandsIgnoredOutsideInitAndSkip : Prop :=
  ∀ t u : Transaction, t.cmd = u.cmd → opcField t.cmd ≠ 0x01 → opcField t.cmd ≠ 0x04 → decode t = decode u

/-- 30_encoding R66: a word selects at most one row of the opcode map: of two rows in different places of the table, equal ones
included, no word selects both. -/
def Obligations.OpcodeRowsDoNotOverlap : Prop :=
  rows.Pairwise fun r q => ∀ w : CmdWord, ¬ (r.selects w = true ∧ q.selects w = true)

/-- 30_encoding R66: the encoding examples of the spec, and words of the families N and `RDLE64` from their rules. -/
def Obligations.SpecWordsDecode : Prop :=
  decode ⟨0x00001F08, 0, 0⟩ = .ok (.rdu32 0 32) ∧
    decode ⟨0x0000200A, 0, 0⟩ = .ok (.rdu64 0 33) ∧
    decode ⟨0x00020808, 0, 0⟩ = .ok (.rdu32 2 9) ∧
    decode ⟨0x00010003, 0, 0⟩ = .ok (.peek 1 0) ∧
    decode ⟨0x0000001B, 0, 0⟩ = .ok (.check 0) ∧
    decode ⟨0x00033F0B, 0, 0⟩ = .ok (.rds64 3 64) ∧
    decode ⟨0x00010012, 0, 0⟩ = .ok (.rdle64 1) ∧
    decode ⟨0x00000001, 0x3000, 6⟩ = .ok (.init 0 0x3000 6)

/-- 30_encoding R69: the expansions and encodings of the ten pseudo-instructions on `c0`, and the context index in bits
19:16. -/
def Obligations.PseudoInstructionEncodings : Prop :=
  ([.rdu1, .rdu8, .rdu16, .rdu32, .rdu64, .rds1, .rds8, .rds16, .rds32, .rds64] : List Pseudo).map
      (fun p => commandWord (p.expand 0)) =
    [0x00000008, 0x00000708, 0x00000F08, 0x00001F08, 0x00003F0A,
      0x00000009, 0x00000709, 0x00000F09, 0x00001F09, 0x00003F0B] ∧
  ∀ (p : Pseudo) (c : CtxId), commandWord (p.expand c) = commandWord (p.expand 0) ||| (BitVec.ofNat 32 c.val <<< 16)

/-- 30_encoding R68: the assembler never gives a command that has no command word: a width outside the stated range is
rejected. -/
def Obligations.AssemblerRejectsIllegalWidths : Prop :=
  ∀ (line : List Char) (i : Instr), Asm.assemble line = some i → i.wf = true

/-! ## The step -/

/-- 10_state R20: the command at the head of the queue is decoded and performed, when `RST` is deasserted. That the host's
commands wait in a queue, one taken a step, is the model's choice (log 5). -/
def Obligations.StepRunsDecodedCommand : Prop :=
  ∀ (s : State) (t : Transaction) (rest : List HostEvent) (i : Instr),
    s.inbox = .command t :: rest → s.rst = false → decode t = .ok i →
      step s = exec i { s with inbox := rest }

/-- 60_exceptions R161, R164: an illegal encoding completes with `ILLEGAL`, 0, 0 and has no other effect. -/
def Obligations.IllegalWordOnlyResponds : Prop :=
  ∀ (s : State) (t : Transaction) (rest : List HostEvent) (e : DecodeError),
    s.inbox = .command t :: rest → s.rst = false → decode t = .error e →
      step s = .next { s with inbox := rest, responses := s.responses ++ [⟨.illegal, 0, 0⟩] }

/-- 60_exceptions R164, R168, R174, 10_state R20: nothing stops the block: every step answers a next state; and with no
event it is idle and holds its state (that a step takes one queued event is log 5). -/
def Obligations.StepAlwaysNext : Prop :=
  (∀ s : State, ∃ t, step s = .next t) ∧ ∀ s : State, s.inbox = [] → step s = .next s

/-- 70_reset R187: exactly one response per accepted command, in order, errors included. -/
def Obligations.OneResponsePerCommand : Prop :=
  ∀ (s : State) (t : Transaction) (rest : List HostEvent), s.inbox = .command t :: rest → s.rst = false →
    ∃ u r, step s = .next u ∧ u.responses = s.responses ++ [r] ∧ u.inbox = rest

/-- 20_memory R41, R52: the block never writes buffer memory. A command, legal or not, leaves every byte and every
pending write of the host as they were, and makes reads only. -/
def Obligations.CommandsNeverWriteMemory : Prop :=
  ∀ (s u : State) (t : Transaction) (rest : List HostEvent), s.inbox = .command t :: rest → step s = .next u →
    (∀ a, u.memByte a = s.memByte a) ∧ u.mem = s.mem ∧ u.pending = s.pending ∧ ∃ as, u.reads = s.reads ++ as

/-! ## Hardware reset and the host's events -/

/-- 70_reset R180: after hardware reset no context holds a cursor, no response has been delivered and no byte read, for
every choice of the parameters (that responses and reads are records is log 12). -/
def Obligations.ResetHoldsNoCursor : Prop :=
  ∀ p : Config.Params,
    (State.resetWith p).nCtx = p.nCtx ∧ (∀ i : CtxId, (State.resetWith p).HoldsNone i) ∧
      (State.resetWith p).rst = false ∧ (State.resetWith p).responses = [] ∧ (State.resetWith p).reads = []

/-- 70_reset R180: `RST` invalidates every context, keeps their number, delivers no response, reads no byte and leaves
buffer memory alone. The other fields are free values (log 3): nothing is said of them. -/
def Obligations.RstInvalidatesEveryContext : Prop :=
  ∀ (s : State) (rest : List HostEvent), s.inbox = .rstAssert :: rest →
    ∃ u, step s = .next u ∧ u.rst = true ∧ u.nCtx = s.nCtx ∧ (∀ i : CtxId, u.HoldsNone i) ∧
      u.responses = s.responses ∧ u.reads = s.reads ∧ (∀ a, u.memByte a = s.memByte a) ∧ u.cfg = s.cfg ∧
      u.pending = s.pending ∧ u.inbox = rest

/-- 70_reset R181: no command is accepted while `RST` is asserted; once it is deasserted the block accepts commands. That
the host's offer in reset is then gone is the model's choice (log 6). -/
def Obligations.NoCommandAcceptedInReset : Prop :=
  (∀ (s : State) (t : Transaction) (rest : List HostEvent), s.inbox = .command t :: rest → s.rst = true →
    step s = .next { s with inbox := rest }) ∧
  ∀ (s : State) (rest : List HostEvent), s.inbox = .rstDeassert :: rest →
    step s = .next { s with inbox := rest, rst := false }

/-- 70_reset R181: `RST` during a command. The response is not delivered, the effect on the contexts is erased, the reads
already made stay made: the first `k` of those the whole command makes. -/
def Obligations.RstCutsCommandOff : Prop :=
  ∀ (s v : State) (t : Transaction) (k : Nat) (rest : List HostEvent),
    s.inbox = .cutCommand t k :: rest → s.rst = false →
    step { s with inbox := .command t :: rest } = .next v →
    ∃ u made, step s = .next u ∧ v.reads = s.reads ++ made ∧ u.reads = s.reads ++ made.take k ∧
      u.responses = s.responses ∧ u.rst = true ∧ (∀ i : CtxId, u.HoldsNone i) ∧ u.inbox = rest ∧
      (∀ a, u.memByte a = s.memByte a)

/-- 70_reset R183 step 2, 20_memory R52 (how visibility is modelled is log 8): a host write is not visible on the memory
port until the host's writes become visible; then a byte the host wrote reads as the last value written, and every
other byte as before. -/
def Obligations.HostWritesBecomeVisible : Prop :=
  (∀ (s : State) (a : Nat) (b : Byte) (rest : List HostEvent), s.inbox = .hostWrite a b :: rest →
    ∃ u, step s = .next u ∧ (∀ x, u.memByte x = s.memByte x) ∧ u.pending = s.pending ++ [(s.addr a, b)] ∧
      u.bank = s.bank ∧ u.responses = s.responses ∧ u.reads = s.reads) ∧
  ∀ (s : State) (rest : List HostEvent), s.Inv → s.inbox = .writesVisible :: rest →
    ∃ u, step s = .next u ∧ u.pending = [] ∧ u.responses = s.responses ∧ u.reads = s.reads ∧
      (∀ x, (∀ w ∈ s.pending, w.1 ≠ s.addr x) → u.memByte x = s.memByte x) ∧
      (∀ x early late b, s.pending = early ++ (s.addr x, b) :: late → (∀ w ∈ late, w.1 ≠ s.addr x) → u.memByte x = b)

/-- 20_memory R57: a host write inside the buffer of a valid aliased context makes the written bytes free draws for
it: bytes of the buffer that are written are disturbed afterwards, the others are as they were; nothing else of the
context changes. -/
def Obligations.BreachMarksWrittenBytes : Prop :=
  ∀ (s : State) (rest : List HostEvent) (i : CtxId) (c : Context), s.Inv → s.Holds i c → c.own = false →
    s.inbox = .writesVisible :: rest →
    ∃ u c', step s = .next u ∧ u.Holds i c' ∧ { c' with stale := c.stale } = c ∧
      ∀ j, j < c.lsize → u.disturbed c'.stale (c'.base + j) = s.disturbed c.stale (c.base + j)

/-- 20_memory R57: each byte of a window that the host has disturbed is a free draw, with a draw number of its own. -/
def Obligations.DisturbedByteIsFreeDraw : Prop :=
  ∀ (s : State) (c : Context) (off k : Nat), c.own = false → k < 8 →
    s.disturbed c.stale (c.base + (off + k)) = true →
    (s.load64BE c off).extractLsb' (56 - 8 * k) 8 = Config.freeByte (s.draws + k) ∧
      (s.logReads (s.windowReads c off)).draws = s.draws + 8

/-! ## The invariant -/

/-- The invariant holds at reset, for every legal choice of the parameters. -/
def Obligations.ResetMeetsInvariant : Prop :=
  ∀ p : Config.Params, p.legal = true → (State.resetWith p).Inv

/-- 10_state R33, 00_scope R5, 20_memory R40, 70_reset R180: every step from every state that meets the invariant keeps it. -/
def Obligations.StepKeepsInvariant : Prop :=
  ∀ s t : State, s.Inv → step s = .next t → t.Inv

/-- 10_state R33: the invariants of a valid context, from the invariant of the state. -/
def Obligations.ValidContextInvariants : Prop :=
  ∀ (s : State) (i : CtxId) (c : Context), s.Inv → s.Holds i c →
    8 ≤ c.plen ∧ c.limit + 8 ≤ c.plen ∧ c.lsize ≤ c.plen ∧ c.limit = max c.lsize 8 - 8 ∧ c.plen = max c.lsize 8

/-! ## Errors -/

/-- 60_exceptions R162, R164: `NOCTX` is raised exactly where a context index is out of range or names a context that
holds no cursor (`INIT` and a `PEEK` destination need none), and changes nothing. -/
def Obligations.NoctxExactlyWithoutCursor : Prop :=
  ∀ (i : Instr) (s : State), i.wf = true →
    (noCursorFor i s → exec i s = .next (s.deliver ⟨.noctx, 0, 0⟩)) ∧
    (∀ t r, exec i s = .next t → t.responses = s.responses ++ [r] → r.status = .noctx → noCursorFor i s)

/-- 60_exceptions R163, R164: `INIT` with a length of `2^LEN_W` or more completes with `RANGE` and changes nothing; no other
command raises `RANGE`. -/
def Obligations.RangeExactlyOversizeInit : Prop :=
  (∀ (s : State) (c : CtxId) (base len : Word), c.val < s.nCtx → 2 ^ s.cfg.lenW ≤ len.toNat →
    exec (.init c base len) s = .next (s.deliver ⟨.range, 0, 0⟩)) ∧
  ∀ (i : Instr) (s t : State) (r : Response), exec i s = .next t → t.responses = s.responses ++ [r] →
    r.status = .range → ∃ c base len, i = .init c base len ∧ c.val < s.nCtx ∧ 2 ^ s.cfg.lenW ≤ len.toNat

/-- 60_exceptions R164: a command, legal word or not, that completes with an error writes no context field, reads no byte,
responds 0, 0 and leaves no record: the state after it is the state before it, but for the event taken and the response. -/
def Obligations.ErrorsChangeNothing : Prop :=
  ∀ (s u : State) (t : Transaction) (rest : List HostEvent) (r : Response), s.inbox = .command t :: rest →
    step s = .next u → u.responses = s.responses ++ [r] → r.status ≠ .ok →
    u = { s with inbox := rest, responses := s.responses ++ [r] } ∧ r.data = 0 ∧ r.aux = 0

/-- 60_exceptions R165: each command reports one status, by priority: `ILLEGAL` on its word alone, then `NOCTX`, then
`RANGE`, and `OK` when all checks pass; unless they all pass it is not performed. -/
def Obligations.StatusByPriority : Prop :=
  ∀ (s : State) (t : Transaction) (rest : List HostEvent), s.inbox = .command t :: rest → s.rst = false →
    ∃ u r, step s = .next u ∧ u.responses = s.responses ++ [r] ∧
      (∀ e, decode t = .error e → r.status = .illegal) ∧
      (r.status ≠ .ok → u = { s with inbox := rest, responses := s.responses ++ [r] }) ∧
      ∀ i, decode t = .ok i →
        (noCursorFor i s → r.status = .noctx) ∧
        (¬ noCursorFor i s → outOfRange i s → r.status = .range) ∧
        (¬ noCursorFor i s → ¬ outOfRange i s → r.status = .ok)

/-! ## The datapath -/

/-- 00_scope R9: the three shift operators on their whole domain. -/
def Obligations.ShiftOperators : Prop :=
  ∀ (x : Word) (s : Nat),
    (shl64 x s).toNat = (if s < 64 then x.toNat * 2 ^ s % 2 ^ 64 else 0) ∧
    (srl64 x s).toNat = (if s < 64 then x.toNat / 2 ^ s else 0) ∧
    sra64 x s = (if s < 64 then BitVec.ofInt 64 (x.toInt / 2 ^ s)
      else if x.getLsbD 63 = true then BitVec.ofNat 64 (2 ^ 64 - 1) else 0)

/-- 41_extraction R97: the extend transform is sign extension of the low `w` bits, for every width and every value whose
bits above `w − 1` are zero. -/
def Obligations.ExtendIsSignExtension : Prop :=
  ∀ (v : Word) (w : Nat), 1 ≤ w → w ≤ 64 → v.toNat < 2 ^ w → extend v w = (v.setWidth w).signExtend 64

/-- 42_endianness R120: `bswapN` reverses the byte order and is its own inverse. -/
def Obligations.ByteSwapReverses : Prop :=
  (∀ (z : BitVec 16) (k : Nat), k < 2 → (bswap16 z).extractLsb' (8 * k) 8 = z.extractLsb' (8 * (1 - k)) 8) ∧
  (∀ (y : BitVec 32) (k : Nat), k < 4 → (bswap32 y).extractLsb' (8 * k) 8 = y.extractLsb' (8 * (3 - k)) 8) ∧
  (∀ (x : Word) (k : Nat), k < 8 → (bswap64 x).extractLsb' (8 * k) 8 = x.extractLsb' (8 * (7 - k)) 8) ∧
  (∀ z, bswap16 (bswap16 z) = z) ∧ (∀ y, bswap32 (bswap32 y) = y) ∧ (∀ x, bswap64 (bswap64 x) = x)

/-- 10_state R31: the position adder saturates at `2^64 − 1`, and a saturated position is overflowed in every legal
state. -/
def Obligations.AdvanceSaturates : Prop :=
  (∀ (p : Word) (n : Nat), (adv p n).toNat = min (p.toNat + n) (2 ^ 64 - 1)) ∧
  ∀ (s : State) (i : CtxId) (c : Context), s.Inv → s.ctx? i = some c → c.pos.toNat = 2 ^ 64 - 1 → c.ovf = true

/-- 20_memory R47, of the commands themselves, in every state, disturbed bytes included. Every window offset, the second one
of a 64-bit read included, is within `LIMIT`, so that the window lies in the physical buffer, and not past the position; the
byte reads a read command makes are exactly those of its windows (`readsOf`); and every byte that a command reads for a context
with a cursor lies in `[BASE, BASE + LSIZE)` modulo `2^ADDR_W`, where an owned context reads no memory. For every position,
one past the logical end included. (`INIT` loads no window: its reads are those of `Obligations.InitCopies`.) -/
def Obligations.WindowReadsInBounds : Prop :=
  (∀ (s : State) (i : CtxId) (c : Context) (n : Nat), s.Inv → s.Holds i c →
    (c.advance n).wordOffset ≤ c.limit ∧ (c.advance n).wordOffset + 7 < c.plen ∧
      (c.advance n).wordOffset * 8 ≤ (c.advance n).pos.toNat) ∧
  (∀ (i : Instr) (s : State) (c : Context), i.wf = true → isRead i = true → s.Holds (target i) c →
    ∃ t, exec i s = .next t ∧ t.reads = s.reads ++ readsOf s c (bitsConsumed i)) ∧
  ∀ (i : Instr) (s t : State) (c : Context), s.Inv → s.Holds (target i) c →
    (∀ k base len, i ≠ .init k base len) → exec i s = .next t →
    ∃ made, t.reads = s.reads ++ made ∧ (c.own = true → made = []) ∧
      ∀ a ∈ made, ∃ j, j < c.lsize ∧ a = (c.base + j) % 2 ^ s.cfg.addrW

/-- 20_memory R48: the exact number of byte reads of every command that completes with `OK`, and none on an error. -/
def Obligations.ReadCountsExact : Prop :=
  ∀ (i : Instr) (s t : State) (r : Response), exec i s = .next t → t.responses = s.responses ++ [r] →
    (r.status ≠ .ok → t.reads = s.reads) ∧
    (r.status = .ok → ∀ c, s.ctx? (target i) = some c →
      t.reads.length = s.reads.length +
        match i with
        | .init _ _ len => if len.toNat < 8 then len.toNat else 0
        | .rdu32 _ _ | .rds32 _ _ | .rdbit _ | .rdle16 _ | .rdle32 _ => if c.own then 0 else 8
        | .rdu64 _ bits | .rds64 _ bits => if c.own then 0 else if 32 < bits then 16 else 8
        | .rdle64 _ => if c.own then 0 else 16
        | .skip _ _ | .pos _ | .rembits _ | .rembytes _ | .peek _ _ | .reset _ | .check _ => 0)

/-! ## Construction -/

/-- 40_construction R80: `INIT` with `L ≥ 8` makes an aliased context and reads no memory. -/
def Obligations.InitAliases : Prop :=
  ∀ (s : State) (i : CtxId) (base len : Word), i.val < s.nCtx → 8 ≤ len.toNat → len.toNat < 2 ^ s.cfg.lenW →
    ∃ t, exec (.init i base len) s = .next t ∧ t.responses = s.responses ++ [⟨.ok, 0, 0⟩] ∧
      t.ctx? i = some ⟨true, 0, len.toNat, len.toNat - 8, base.toNat % 2 ^ s.cfg.addrW, Pad.zero, []⟩ ∧
      t.reads = s.reads ∧ s.OnlyContext t i

/-- 40_construction R80, 70_reset R186: `INIT` with `L < 8` makes an owned context: `L` ascending byte reads fill the prefix
of `PAD`, zeros the rest. A byte whose host write is not yet visible is a free draw. -/
def Obligations.InitCopies : Prop :=
  ∀ (s : State) (i : CtxId) (base len : Word), i.val < s.nCtx → len.toNat < 8 → len.toNat < 2 ^ s.cfg.lenW →
    ∃ t pad, exec (.init i base len) s = .next t ∧ t.responses = s.responses ++ [⟨.ok, 0, 0⟩] ∧
      t.ctx? i = some ⟨true, 0, len.toNat, 0, base.toNat % 2 ^ s.cfg.addrW, pad, []⟩ ∧
      (∀ j, j < len.toNat → pad.get j =
        if s.pending.any (fun w => w.1 == (base.toNat + j) % 2 ^ s.cfg.addrW) then Config.freeByte (s.draws + j)
        else s.memByte (base.toNat + j)) ∧
      (∀ j, len.toNat ≤ j → j < 8 → pad.get j = 0) ∧
      t.reads = s.reads ++ (List.range len.toNat).map (fun j => (base.toNat + j) % 2 ^ s.cfg.addrW) ∧
      s.OnlyContext t i

/-- 40_construction R81: after `INIT`, with all host writes visible, the physical buffer is the caller's bytes and then
zeros up to `PLEN = max(L, 8)`. -/
def Obligations.InitBufferContents : Prop :=
  ∀ (s t : State) (i : CtxId) (base len : Word), i.val < s.nCtx → len.toNat < 2 ^ s.cfg.lenW → s.pending = [] →
    exec (.init i base len) s = .next t →
    ∃ c, t.Holds i c ∧ c.plen = max len.toNat 8 ∧
      (∀ j, j < len.toNat → t.bufferByte c j = s.memByte (base.toNat + j)) ∧
      (∀ j, len.toNat ≤ j → j < c.plen → t.bufferByte c j = 0)

/-- 40_construction R82: an owned context is a snapshot. What the eight read commands answer on it does not depend on
buffer memory or on the host's later writes. -/
def Obligations.OwnedReadsIgnoreMemory : Prop :=
  ∀ (i : Instr) (s u : State) (c : Context), c.own = true → s.Holds (target i) c → u.Holds (target i) c →
    (∀ k base len, i ≠ .init k base len) → (∀ d q, i ≠ .peek d q) →
    ∃ s' u' r, exec i s = .next s' ∧ exec i u = .next u' ∧ s'.responses = s.responses ++ [r] ∧
      u'.responses = u.responses ++ [r] ∧ s'.reads = s.reads ∧ u'.reads = u.reads

/-! ## Big-endian reads -/

/-- 20_memory R45, 10_state R31, 60_exceptions R166: every read and `SKIP` consumes the bits its form names and leaves
`POS = Adv(POS, n)`, every query leaves it alone; in every state, disturbed buffers included, with response `OK`. -/
def Obligations.PositionAdvancesByWidth : Prop :=
  ∀ (i : Instr) (s : State) (c : Context), i.wf = true → s.Holds (target i) c →
    (∀ k base len, i ≠ .init k base len) → (∀ d q, i ≠ .peek d q) → (∀ k, i ≠ .reset k) →
    ∃ t data aux, exec i s = .next t ∧ t.responses = s.responses ++ [⟨.ok, data, aux⟩] ∧
      t.ctx? (target i) =
        some { c with pos := BitVec.ofNat 64 (min (c.pos.toNat + bitsConsumed i) (2 ^ 64 - 1)) } ∧
      s.OnlyContext t (target i)

/-- 41_extraction R93, the read law, through `RDU32`: it returns the `bits` logical bits from `POS`, the first one most
significant, zero-extended, and advances `POS`, at every position, also across and past the logical end. -/
def Obligations.Rdu32ReadsLogicalBits : Prop :=
  ∀ (s : State) (i : CtxId) (c : Context) (bits : Nat), s.Inv → s.Holds i c → s.Undisturbed c →
    1 ≤ bits → bits ≤ 32 →
    ∃ t, exec (.rdu32 i bits) s = .next t ∧
      t.responses = s.responses ++ [⟨.ok, BitVec.ofNat 64 (s.streamValue c c.pos.toNat bits), 0⟩] ∧
      t.ctx? i = some { c with pos := adv c.pos bits } ∧ t.reads = s.reads ++ readsOf s c bits ∧ s.OnlyContext t i

/-- 41_extraction R91, R94: `RDS32` returns the same bits as a two's-complement value, sign-extended. -/
def Obligations.Rds32ReadsSignedBits : Prop :=
  ∀ (s : State) (i : CtxId) (c : Context) (bits : Nat), s.Inv → s.Holds i c → s.Undisturbed c →
    1 ≤ bits → bits ≤ 32 →
    ∃ t, exec (.rds32 i bits) s = .next t ∧
      t.responses = s.responses ++
        [⟨.ok, (BitVec.ofNat bits (s.streamValue c c.pos.toNat bits)).signExtend 64, 0⟩] ∧
      t.ctx? i = some { c with pos := adv c.pos bits } ∧ t.reads = s.reads ++ readsOf s c bits ∧ s.OnlyContext t i

/-- 41_extraction R96: `RDU64` returns the `bits` logical bits from `POS`, through one window or two, at every position. -/
def Obligations.Rdu64ReadsLogicalBits : Prop :=
  ∀ (s : State) (i : CtxId) (c : Context) (bits : Nat), s.Inv → s.Holds i c → s.Undisturbed c →
    1 ≤ bits → bits ≤ 64 →
    ∃ t, exec (.rdu64 i bits) s = .next t ∧
      t.responses = s.responses ++ [⟨.ok, BitVec.ofNat 64 (s.streamValue c c.pos.toNat bits), 0⟩] ∧
      t.ctx? i = some { c with pos := adv c.pos bits } ∧ t.reads = s.reads ++ readsOf s c bits ∧ s.OnlyContext t i

/-- 41_extraction R97, R98: `RDS64` returns the same bits sign-extended. -/
def Obligations.Rds64ReadsSignedBits : Prop :=
  ∀ (s : State) (i : CtxId) (c : Context) (bits : Nat), s.Inv → s.Holds i c → s.Undisturbed c →
    1 ≤ bits → bits ≤ 64 →
    ∃ t, exec (.rds64 i bits) s = .next t ∧
      t.responses = s.responses ++
        [⟨.ok, (BitVec.ofNat bits (s.streamValue c c.pos.toNat bits)).signExtend 64, 0⟩] ∧
      t.ctx? i = some { c with pos := adv c.pos bits } ∧ t.reads = s.reads ++ readsOf s c bits ∧ s.OnlyContext t i

/-- 41_extraction R99: `RDBIT` returns the logical bit at `POS` and advances by one. -/
def Obligations.RdbitReadsOneBit : Prop :=
  ∀ (s : State) (i : CtxId) (c : Context), s.Inv → s.Holds i c → s.Undisturbed c →
    ∃ t, exec (.rdbit i) s = .next t ∧
      t.responses = s.responses ++ [⟨.ok, if s.logicalBit c c.pos.toNat then 1 else 0, 0⟩] ∧
      t.ctx? i = some { c with pos := adv c.pos 1 } ∧ t.reads = s.reads ++ readsOf s c 1 ∧ s.OnlyContext t i

/-- 41_extraction R91, R92, R94: the datapath as its pseudocode has it, in every state, disturbed bytes included: one window at
`WordOffset`, a left shift that discards the consumed bits, a right shift, logical or arithmetic. -/
def Obligations.ExtractDatapath : Prop :=
  ∀ (s : State) (i : CtxId) (c : Context) (bits : Nat), s.Holds i c → 1 ≤ bits → bits ≤ 32 →
    let wo := min (c.pos.toNat / 32 * 4) c.limit
    let x := shl64 (s.load64BE c wo) (c.pos.toNat - wo * 8)
    let after := (s.logReads (s.windowReads c wo)).setCtx i { c with pos := adv c.pos bits }
    exec (.rdu32 i bits) s = .next (after.deliver ⟨.ok, ((srl64 x (64 - bits)).setWidth 32).setWidth 64, 0⟩) ∧
    exec (.rds32 i bits) s = .next (after.deliver ⟨.ok, ((sra64 x (64 - bits)).setWidth 32).signExtend 64, 0⟩)

/-- 41_extraction R95: for widths up to 32, `RDS32` and `RDS64` give the same response and next state in every state, and
the value is the two's-complement reading of the `RDU32` result: `Extend` of it. -/
def Obligations.Rds32EqualsRds64 : Prop :=
  (∀ (s : State) (i : CtxId) (bits : Nat), 1 ≤ bits → bits ≤ 32 → exec (.rds32 i bits) s = exec (.rds64 i bits) s) ∧
  ∀ (s : State) (i : CtxId) (c : Context) (bits : Nat), s.Holds i c → 1 ≤ bits → bits ≤ 32 →
    ∃ (t : State) (u : Word), exec (.rdu32 i bits) s = .next (t.deliver ⟨.ok, u, 0⟩) ∧
      exec (.rds32 i bits) s = .next (t.deliver ⟨.ok, extend u bits, 0⟩)

/-- 41_extraction R96, R99: `RDU64` of up to 32 bits is `RDU32`, and `RDBIT` is `RDU32` of one bit, in every state. -/
def Obligations.NarrowReadsAgree : Prop :=
  (∀ (s : State) (i : CtxId) (bits : Nat), 1 ≤ bits → bits ≤ 32 → exec (.rdu64 i bits) s = exec (.rdu32 i bits) s) ∧
  ∀ (s : State) (i : CtxId), exec (.rdbit i) s = exec (.rdu32 i 1) s

/-! ## Little-endian reads -/

/-- 42_endianness R121 to R123: each little-endian read answers the byte-swap of the logical bits, zero-extended, and advances
`POS` by its width, at every position. -/
def Obligations.LittleEndianReadsSwapBits : Prop :=
  ∀ (s : State) (i : CtxId) (c : Context), s.Inv → s.Holds i c → s.Undisturbed c →
    (∃ t, exec (.rdle16 i) s = .next t ∧
      t.responses = s.responses ++
        [⟨.ok, (bswap16 (BitVec.ofNat 16 (s.streamValue c c.pos.toNat 16))).setWidth 64, 0⟩] ∧
      t.ctx? i = some { c with pos := adv c.pos 16 } ∧ t.reads = s.reads ++ readsOf s c 16 ∧ s.OnlyContext t i) ∧
    (∃ t, exec (.rdle32 i) s = .next t ∧
      t.responses = s.responses ++
        [⟨.ok, (bswap32 (BitVec.ofNat 32 (s.streamValue c c.pos.toNat 32))).setWidth 64, 0⟩] ∧
      t.ctx? i = some { c with pos := adv c.pos 32 } ∧ t.reads = s.reads ++ readsOf s c 32 ∧ s.OnlyContext t i) ∧
    (∃ t, exec (.rdle64 i) s = .next t ∧
      t.responses = s.responses ++ [⟨.ok, bswap64 (BitVec.ofNat 64 (s.streamValue c c.pos.toNat 64)), 0⟩] ∧
      t.ctx? i = some { c with pos := adv c.pos 64 } ∧ t.reads = s.reads ++ readsOf s c 64 ∧ s.OnlyContext t i)

/-- 42_endianness R124: in every state with a cursor, the little-endian response is the byte-swap of the big-endian one of
the same width, and the next state is the same. -/
def Obligations.LittleEndianIsSwapOfBigEndian : Prop :=
  ∀ (s : State) (i : CtxId) (c : Context), s.Holds i c →
    (∃ (t : State) (d : Word), exec (.rdu32 i 16) s = .next (t.deliver ⟨.ok, d, 0⟩) ∧
      exec (.rdle16 i) s = .next (t.deliver ⟨.ok, (bswap16 (d.setWidth 16)).setWidth 64, 0⟩)) ∧
    (∃ (t : State) (d : Word), exec (.rdu32 i 32) s = .next (t.deliver ⟨.ok, d, 0⟩) ∧
      exec (.rdle32 i) s = .next (t.deliver ⟨.ok, (bswap32 (d.setWidth 32)).setWidth 64, 0⟩)) ∧
    (∃ (t : State) (d : Word), exec (.rdu64 i 64) s = .next (t.deliver ⟨.ok, d, 0⟩) ∧
      exec (.rdle64 i) s = .next (t.deliver ⟨.ok, bswap64 d, 0⟩))

/-- 42_endianness R124: at a byte-aligned position inside the logical buffer, a little-endian read is the little-endian
integer of the bytes at `POS / 8`: the byte at the lowest offset least significant. -/
def Obligations.LittleEndianReadsAlignedInteger : Prop :=
  ∀ (s : State) (i : CtxId) (c : Context), s.Inv → s.Holds i c → s.Undisturbed c → c.pos.toNat % 8 = 0 →
    let value (n : Nat) : Word :=
      BitVec.ofNat 64 (∑ k ∈ Finset.range n, (s.bufferByte c (c.pos.toNat / 8 + k)).toNat * 256 ^ k)
    (c.pos.toNat + 16 ≤ c.lbits → ∃ t, exec (.rdle16 i) s = .next t ∧
      t.responses = s.responses ++ [⟨.ok, value 2, 0⟩]) ∧
    (c.pos.toNat + 32 ≤ c.lbits → ∃ t, exec (.rdle32 i) s = .next t ∧
      t.responses = s.responses ++ [⟨.ok, value 4, 0⟩]) ∧
    (c.pos.toNat + 64 ≤ c.lbits → ∃ t, exec (.rdle64 i) s = .next t ∧
      t.responses = s.responses ++ [⟨.ok, value 8, 0⟩])

/-! ## Position, peek, reset, tail, check -/

/-- 43_position R130: `SKIP` advances the position by its count, saturating, reads nothing and responds 0, 0. -/
def Obligations.SkipAdvances : Prop :=
  ∀ (s : State) (i : CtxId) (c : Context) (count : Word), s.Holds i c →
    ∃ t, exec (.skip i count) s = .next t ∧ t.responses = s.responses ++ [⟨.ok, 0, 0⟩] ∧
      t.ctx? i = some { c with pos := BitVec.ofNat 64 (min (c.pos.toNat + count.toNat) (2 ^ 64 - 1)) } ∧
      t.reads = s.reads ∧ s.OnlyContext t i

/-- 43_position R131, R132, R139: `POS`, `REMBITS` and `CHECK` answer the position, the bits left and the overflow condition;
nothing but the response changes. -/
def Obligations.QueriesAnswerAndChangeNothing : Prop :=
  ∀ (s : State) (i : CtxId) (c : Context), s.Inv → s.Holds i c →
    exec (.pos i) s = .next { s with responses := s.responses ++ [⟨.ok, c.pos, 0⟩] } ∧
    (∃ n : Word, n.toNat = c.lsize * 8 - min c.pos.toNat (c.lsize * 8) ∧
      exec (.rembits i) s = .next { s with responses := s.responses ++ [⟨.ok, n, 0⟩] }) ∧
    exec (.check i) s =
      .next { s with responses := s.responses ++ [⟨.ok, if c.lsize * 8 < c.pos.toNat then 1 else 0, 0⟩] }

/-- 43_position R137: `REMBYTES` answers start and length of the byte-aligned tail of the physical buffer, (0, 0) when the
start is at or past `LSIZE`; nothing but the response changes. -/
def Obligations.RembytesAnswersTail : Prop :=
  ∀ (s : State) (i : CtxId) (c : Context), s.Inv → s.Holds i c →
    ∃ start len : Word, exec (.rembytes i) s = .next { s with responses := s.responses ++ [⟨.ok, start, len⟩] } ∧
      (c.lsize ≤ c.pos.toNat / 8 → start = 0 ∧ len = 0) ∧
      (c.pos.toNat / 8 < c.lsize → start.toNat = c.pos.toNat / 8 ∧ start.toNat + len.toNat = max c.lsize 8)

/-- 43_position R134: `PEEK` copies every field of a valid source to the destination, valid or not, reads nothing and
responds 0, 0. -/
def Obligations.PeekCopiesContext : Prop :=
  ∀ (s : State) (d q : CtxId) (c : Context), d.val < s.nCtx → s.Holds q c →
    ∃ t, exec (.peek d q) s = .next t ∧ t.responses = s.responses ++ [⟨.ok, 0, 0⟩] ∧ t.ctx? d = some c ∧
      t.reads = s.reads ∧ s.OnlyContext t d

/-- 43_position R136: `RESET` sets `POS` to 0, keeps every other field, reads nothing and responds 0, 0. -/
def Obligations.ResetRewinds : Prop :=
  ∀ (s : State) (i : CtxId) (c : Context), s.Holds i c →
    ∃ t, exec (.reset i) s = .next t ∧ t.responses = s.responses ++ [⟨.ok, 0, 0⟩] ∧
      t.ctx? i = some { c with pos := 0 } ∧ t.reads = s.reads ∧ s.OnlyContext t i

/-- 43_position R133: `REMBITS` (`Context.remBits`, the value `Obligations.QueriesAnswerAndChangeNothing` says `REMBITS`
answers) is at most `LBITS`; a command that moves `POS` from `p` to `p'` lowers it by `min(p', LBITS) − min(p, LBITS)`: by
exactly the bits consumed while `p' ≤ LBITS`, by less once it crosses the logical end. (`INIT` and `PEEK` write a cursor of
their own: there is no `p` to compare.) -/
def Obligations.RembitsDecrease : Prop :=
  ∀ (i : Instr) (s t : State) (c : Context), s.Holds (target i) c →
    (∀ k base len, i ≠ .init k base len) → (∀ d q, i ≠ .peek d q) → exec i s = .next t →
    ∃ c', t.Holds (target i) c' ∧ c'.lbits = c.lbits ∧ c'.remBits ≤ c'.lbits ∧
      c'.remBits + min c'.pos.toNat c.lbits = c.remBits + min c.pos.toNat c.lbits ∧
      (c.pos.toNat ≤ c'.pos.toNat → c'.pos.toNat ≤ c.lbits → c'.remBits + (c'.pos.toNat - c.pos.toNat) = c.remBits) ∧
      (c.pos.toNat < c'.pos.toNat → c.lbits < c'.pos.toNat → c.remBits < c'.remBits + (c'.pos.toNat - c.pos.toNat))

/-- 43_position R135, 10_state R30: a command writes the context in its `CTX` field and no other, whatever its outcome. -/
def Obligations.OnlyTargetContextChanges : Prop :=
  ∀ (i : Instr) (s t : State), exec i s = .next t → s.OnlyContext t (target i)

/-- 43_position R135: each context's responses depend only on its own state and buffer: two states that agree on the
addressed cursor and on its buffer's bytes get the same response, whatever the other contexts
hold. -/
def Obligations.ResponsesDependOnOwnContext : Prop :=
  ∀ (i : Instr) (s u : State) (c : Context), s.Inv → s.Holds (target i) c → u.Holds (target i) c →
    s.Undisturbed c → u.Undisturbed c → (∀ j, j < c.lsize → s.bufferByte c j = u.bufferByte c j) →
    (∀ k base len, i ≠ .init k base len) → (∀ d q, i ≠ .peek d q) →
    ∃ s' u' r, exec i s = .next s' ∧ exec i u = .next u' ∧ s'.responses = s.responses ++ [r] ∧
      u'.responses = u.responses ++ [r] ∧ s'.ctx? (target i) = u'.ctx? (target i)

/-- 10_state R24, R36: within a lifetime only `POS` changes, and only `RESET` lowers it. -/
def Obligations.OnlyPositionChangesInLifetime : Prop :=
  ∀ (i : Instr) (s t : State) (k : CtxId) (c : Context), s.Holds k c →
    (∀ base len, i ≠ .init k base len) → (∀ q, i ≠ .peek k q) → exec i s = .next t →
    ∃ c', t.Holds k c' ∧ c' = { c with pos := c'.pos } ∧ (i ≠ .reset k → c.pos.toNat ≤ c'.pos.toNat)

/-- 43_position R140, 10_state R34: once overflowed, a context stays overflowed until `INIT`, `RESET` or `PEEK` onto it; and a read or skip
that consumes a bit past the logical end makes it overflowed. -/
def Obligations.OverflowSticksUntilRewound : Prop :=
  (∀ (i : Instr) (s t : State) (k : CtxId) (c : Context), s.Holds k c → c.ovf = true →
    (∀ base len, i ≠ .init k base len) → (∀ q, i ≠ .peek k q) → i ≠ .reset k → exec i s = .next t →
    ∃ c', t.Holds k c' ∧ c'.ovf = true) ∧
  ∀ (i : Instr) (s t : State) (c : Context), i.wf = true → s.Inv → s.Holds (target i) c →
    c.lbits < c.pos.toNat + bitsConsumed i → (∀ k base len, i ≠ .init k base len) → (∀ d q, i ≠ .peek d q) →
    (∀ k, i ≠ .reset k) → exec i s = .next t → ∃ c', t.Holds (target i) c' ∧ c'.ovf = true

/-! ## The response bus -/

/-- 10_state R21, 41_extraction R100, 42_endianness R121 to R123: in every state, disturbed bytes included, a command that
completes with `OK` leaves on the response bus a value of its type: `RSP_AUX` 0 outside `REMBYTES`, `RSP_DATA` 0 for `INIT`,
`RESET`, `PEEK` and `SKIP`, a boolean for `RDBIT` and `CHECK`, and for a read of `n` bits an `n`-bit value extended by its
signedness. -/
def Obligations.ResponsesCarryTheirType : Prop :=
  ∀ (i : Instr) (s t : State) (data aux : Word), exec i s = .next t →
    t.responses = s.responses ++ [⟨.ok, data, aux⟩] →
    ((∀ k, i ≠ .rembytes k) → aux = 0) ∧
      match i with
      | .init _ _ _ | .reset _ | .peek _ _ | .skip _ _ => data = 0
      | .rdu32 _ bits | .rdu64 _ bits => data.toNat < 2 ^ bits
      | .rds32 _ bits | .rds64 _ bits => data = (data.setWidth bits).signExtend 64
      | .rdbit _ | .check _ => data.toNat ≤ 1
      | .rdle16 _ => data.toNat < 2 ^ 16
      | .rdle32 _ => data.toNat < 2 ^ 32
      | .rdle64 _ | .pos _ | .rembits _ | .rembytes _ => True
end

