-- ==== Sys2Proof/Laws/Encode.lean ====
section
/-! SUPPORT. The fields of a laid-out command word (30_encoding R61), and the mask of each format on it (R66). -/

namespace Sys2Proof

theorem inWidth_iff {max bits : Nat} : inWidth max bits = true ↔ 1 ≤ bits ∧ bits ≤ max := by
  unfold inWidth; exact decide_eq_true_iff

variable (s c : CtxId) (w : BitVec 6) (o : BitVec 8)

@[simp] theorem opcField_layout : opcField (layout s c w o) = o := by
  apply BitVec.eq_of_getLsbD_eq
  intro i hi
  simp only [opcField, layout, BitVec.getLsbD_extractLsb', BitVec.getLsbD_append, hi]
  split_ifs <;> first | omega | simp

@[simp] theorem wm1Field_layout : wm1Field (layout s c w o) = w := by
  apply BitVec.eq_of_getLsbD_eq
  intro i hi
  simp only [wm1Field, layout, BitVec.getLsbD_extractLsb', BitVec.getLsbD_append, hi]
  split_ifs <;> first | omega | simp

@[simp] theorem ctxField_layout : ctxField (layout s c w o) = c := by
  have : (layout s c w o).extractLsb' 16 4 = BitVec.ofFin (w := 4) c := by
    apply BitVec.eq_of_getLsbD_eq
    intro i hi
    simp only [layout, BitVec.getLsbD_extractLsb', BitVec.getLsbD_append, hi]
    split_ifs <;> first | omega | (simp; congr 1; omega)
  rw [ctxField, this]

@[simp] theorem sctxField_layout : sctxField (layout s c w o) = s := by
  have : (layout s c w o).extractLsb' 20 4 = BitVec.ofFin (w := 4) s := by
    apply BitVec.eq_of_getLsbD_eq
    intro i hi
    simp only [layout, BitVec.getLsbD_extractLsb', BitVec.getLsbD_append, hi]
    split_ifs <;> first | omega | (simp; congr 1; omega)
  rw [sctxField, this]

theorem layout_mask_n : layout 0 c 0#6 o &&& Format.n.mask = o.setWidth 32 := by
  apply BitVec.eq_of_getLsbD_eq
  intro i hi
  simp only [layout, Format.mask, BitVec.getLsbD_and, BitVec.getLsbD_append, BitVec.getLsbD_setWidth, hi]
  split_ifs <;> interval_cases i <;> first | omega | simp

theorem layout_mask_p : layout s c 0#6 o &&& Format.p.mask = o.setWidth 32 := by
  apply BitVec.eq_of_getLsbD_eq
  intro i hi
  simp only [layout, Format.mask, BitVec.getLsbD_and, BitVec.getLsbD_append, BitVec.getLsbD_setWidth, hi]
  split_ifs <;> interval_cases i <;> first | omega | simp

theorem layout_mask_w64 : layout 0 c w o &&& Format.w64.mask = o.setWidth 32 := by
  apply BitVec.eq_of_getLsbD_eq
  intro i hi
  simp only [layout, Format.mask, BitVec.getLsbD_and, BitVec.getLsbD_append, BitVec.getLsbD_setWidth, hi]
  split_ifs <;> interval_cases i <;> first | omega | simp

theorem layout_mask_w32 (hw : w.getLsbD 5 = false) : layout 0 c w o &&& Format.w32.mask = o.setWidth 32 := by
  have hw' : w[5] = false := by rw [← hw, BitVec.getLsbD_eq_getElem]
  apply BitVec.eq_of_getLsbD_eq
  intro i hi
  simp only [layout, Format.mask, BitVec.getLsbD_and, BitVec.getLsbD_append, BitVec.getLsbD_setWidth, hi]
  split_ifs <;> interval_cases i <;> first | omega | simp [hw']

/-! Masked comparison, field by field (R63, R66). -/

theorem mask_eq_iff_bits (x m : CmdWord) :
    x &&& m = o.setWidth 32 ↔ ∀ i : Fin 32, (x[i] && m[i]) = (o.setWidth 32)[i] := by
  constructor
  · intro h i
    rw [← h]; simp
  · intro h
    apply BitVec.eq_of_getElem_eq
    intro i hi
    simpa using h ⟨i, hi⟩

theorem extractLsb'_eq_iff_bits {n k : Nat} (x : CmdWord) (v : BitVec n) :
    x.extractLsb' k n = v ↔ ∀ i : Fin n, x.getLsbD (k + i) = v[i] := by
  constructor
  · rintro rfl i
    simp
  · intro h
    apply BitVec.eq_of_getElem_eq
    intro i hi
    simpa using h ⟨i, hi⟩

theorem mask_n_iff (x : CmdWord) : x &&& Format.n.mask = o.setWidth 32 ↔
    x.extractLsb' 0 8 = o ∧ x.extractLsb' 8 6 = 0 ∧ x.extractLsb' 14 2 = 0 ∧ x.extractLsb' 20 4 = 0 ∧
      x.extractLsb' 24 8 = 0 := by
  simp only [mask_eq_iff_bits, extractLsb'_eq_iff_bits]
  simp [Fin.forall_fin_succ, Format.mask]
  tauto

theorem mask_p_iff (x : CmdWord) : x &&& Format.p.mask = o.setWidth 32 ↔
    x.extractLsb' 0 8 = o ∧ x.extractLsb' 8 6 = 0 ∧ x.extractLsb' 14 2 = 0 ∧ x.extractLsb' 24 8 = 0 := by
  simp only [mask_eq_iff_bits, extractLsb'_eq_iff_bits]
  simp [Fin.forall_fin_succ, Format.mask]
  tauto

theorem mask_w32_iff (x : CmdWord) : x &&& Format.w32.mask = o.setWidth 32 ↔
    x.extractLsb' 0 8 = o ∧ x.extractLsb' 13 1 = 0 ∧ x.extractLsb' 14 2 = 0 ∧ x.extractLsb' 20 4 = 0 ∧
      x.extractLsb' 24 8 = 0 := by
  simp only [mask_eq_iff_bits, extractLsb'_eq_iff_bits]
  simp [Fin.forall_fin_succ, Format.mask]
  tauto

theorem mask_w64_iff (x : CmdWord) : x &&& Format.w64.mask = o.setWidth 32 ↔
    x.extractLsb' 0 8 = o ∧ x.extractLsb' 14 2 = 0 ∧ x.extractLsb' 20 4 = 0 ∧ x.extractLsb' 24 8 = 0 := by
  simp only [mask_eq_iff_bits, extractLsb'_eq_iff_bits]
  simp [Fin.forall_fin_succ, Format.mask]
  tauto

/-- `WM1[5] = 0` for a width up to 32 (30_encoding R64). -/
theorem wm1Of_bit5 {bits : Nat} (h : inWidth Config.maxW32 bits = true) : (wm1Of bits).getLsbD 5 = false := by
  rw [inWidth_iff, Config.maxW32] at h
  rw [wm1Of, BitVec.getLsbD_ofNat, Nat.testBit_lt_two_pow (by omega)]
  rfl

/-- `WM1 + 1` gives the width back (30_encoding R64). -/
theorem toNat_wm1Of {bits : Nat} (h : inWidth Config.maxW64 bits = true) : (wm1Of bits).toNat + 1 = bits := by
  rw [inWidth_iff, Config.maxW64] at h
  rw [wm1Of, BitVec.toNat_ofNat]
  omega

theorem inWidth_w64_of_w32 {bits : Nat} (h : inWidth Config.maxW32 bits = true) :
    inWidth Config.maxW64 bits = true := by
  rw [inWidth_iff, Config.maxW32] at h
  rw [inWidth_iff, Config.maxW64]
  omega

end Sys2Proof
end

