-- ==== Sys2Proof/Laws/State.lean ====
section
/-! SUPPORT. One lemma per field per update of State and Context, true by rfl. -/

namespace Sys2Proof.Machine

variable (s : State) (c : Context)

@[simp] theorem State.deliver_cfg (r : Response) : (s.deliver r).cfg = s.cfg := rfl
@[simp] theorem State.deliver_bank (r : Response) : (s.deliver r).bank = s.bank := rfl
@[simp] theorem State.deliver_rst (r : Response) : (s.deliver r).rst = s.rst := rfl
@[simp] theorem State.deliver_inbox (r : Response) : (s.deliver r).inbox = s.inbox := rfl
@[simp] theorem State.deliver_responses (r : Response) : (s.deliver r).responses = s.responses ++ [r] := rfl
@[simp] theorem State.deliver_mem (r : Response) : (s.deliver r).mem = s.mem := rfl
@[simp] theorem State.deliver_pending (r : Response) : (s.deliver r).pending = s.pending := rfl
@[simp] theorem State.deliver_reads (r : Response) : (s.deliver r).reads = s.reads := rfl
@[simp] theorem State.deliver_draws (r : Response) : (s.deliver r).draws = s.draws := rfl

@[simp] theorem State.setCtx_cfg (i : CtxId) (c : Context) : (s.setCtx i c).cfg = s.cfg := rfl
@[simp] theorem State.setCtx_bank (i : CtxId) (c : Context) : (s.setCtx i c).bank = s.bank.set i.val c := rfl
@[simp] theorem State.setCtx_rst (i : CtxId) (c : Context) : (s.setCtx i c).rst = s.rst := rfl
@[simp] theorem State.setCtx_inbox (i : CtxId) (c : Context) : (s.setCtx i c).inbox = s.inbox := rfl
@[simp] theorem State.setCtx_responses (i : CtxId) (c : Context) : (s.setCtx i c).responses = s.responses := rfl
@[simp] theorem State.setCtx_mem (i : CtxId) (c : Context) : (s.setCtx i c).mem = s.mem := rfl
@[simp] theorem State.setCtx_pending (i : CtxId) (c : Context) : (s.setCtx i c).pending = s.pending := rfl
@[simp] theorem State.setCtx_reads (i : CtxId) (c : Context) : (s.setCtx i c).reads = s.reads := rfl
@[simp] theorem State.setCtx_draws (i : CtxId) (c : Context) : (s.setCtx i c).draws = s.draws := rfl

@[simp] theorem State.logReads_cfg (as : List Nat) : (s.logReads as).cfg = s.cfg := rfl
@[simp] theorem State.logReads_bank (as : List Nat) : (s.logReads as).bank = s.bank := rfl
@[simp] theorem State.logReads_rst (as : List Nat) : (s.logReads as).rst = s.rst := rfl
@[simp] theorem State.logReads_inbox (as : List Nat) : (s.logReads as).inbox = s.inbox := rfl
@[simp] theorem State.logReads_responses (as : List Nat) : (s.logReads as).responses = s.responses := rfl
@[simp] theorem State.logReads_mem (as : List Nat) : (s.logReads as).mem = s.mem := rfl
@[simp] theorem State.logReads_pending (as : List Nat) : (s.logReads as).pending = s.pending := rfl
@[simp] theorem State.logReads_reads (as : List Nat) : (s.logReads as).reads = s.reads ++ as := rfl
@[simp] theorem State.logReads_draws (as : List Nat) : (s.logReads as).draws = s.draws + as.length := rfl

@[simp] theorem State.hostWrite_cfg (a : Nat) (b : Byte) : (s.hostWrite a b).cfg = s.cfg := rfl
@[simp] theorem State.hostWrite_bank (a : Nat) (b : Byte) : (s.hostWrite a b).bank = s.bank := rfl
@[simp] theorem State.hostWrite_rst (a : Nat) (b : Byte) : (s.hostWrite a b).rst = s.rst := rfl
@[simp] theorem State.hostWrite_inbox (a : Nat) (b : Byte) : (s.hostWrite a b).inbox = s.inbox := rfl
@[simp] theorem State.hostWrite_responses (a : Nat) (b : Byte) : (s.hostWrite a b).responses = s.responses := rfl
@[simp] theorem State.hostWrite_mem (a : Nat) (b : Byte) : (s.hostWrite a b).mem = s.mem := rfl
@[simp] theorem State.hostWrite_pending (a : Nat) (b : Byte) :
    (s.hostWrite a b).pending =
      s.pending ++ [(s.addr a, b)] := rfl
@[simp] theorem State.hostWrite_reads (a : Nat) (b : Byte) : (s.hostWrite a b).reads = s.reads := rfl
@[simp] theorem State.hostWrite_draws (a : Nat) (b : Byte) : (s.hostWrite a b).draws = s.draws := rfl

@[simp] theorem State.makeVisible_cfg : (s.makeVisible).cfg = s.cfg := rfl
@[simp] theorem State.makeVisible_bank :
    (s.makeVisible).bank =
      s.bank.map fun c => s.pending.foldl (fun c w => c.noteWrite s.cfg.addrW w.1) c := rfl
@[simp] theorem State.makeVisible_rst : (s.makeVisible).rst = s.rst := rfl
@[simp] theorem State.makeVisible_inbox : (s.makeVisible).inbox = s.inbox := rfl
@[simp] theorem State.makeVisible_responses : (s.makeVisible).responses = s.responses := rfl
@[simp] theorem State.makeVisible_mem : (s.makeVisible).mem = Memory.writeAll s.mem s.pending := rfl
@[simp] theorem State.makeVisible_pending : (s.makeVisible).pending = [] := rfl
@[simp] theorem State.makeVisible_reads : (s.makeVisible).reads = s.reads := rfl
@[simp] theorem State.makeVisible_draws : (s.makeVisible).draws = s.draws := rfl

@[simp] theorem State.hardwareReset_cfg : (s.hardwareReset).cfg = s.cfg := rfl
@[simp] theorem State.hardwareReset_bank :
    (s.hardwareReset).bank =
      (List.range s.nCtx).map fun i => Context.unspecified s.cfg (s.draws + drawsPerContext * i) := rfl
@[simp] theorem State.hardwareReset_rst : (s.hardwareReset).rst = true := rfl
@[simp] theorem State.hardwareReset_inbox : (s.hardwareReset).inbox = s.inbox := rfl
@[simp] theorem State.hardwareReset_responses : (s.hardwareReset).responses = s.responses := rfl
@[simp] theorem State.hardwareReset_mem : (s.hardwareReset).mem = s.mem := rfl
@[simp] theorem State.hardwareReset_pending : (s.hardwareReset).pending = s.pending := rfl
@[simp] theorem State.hardwareReset_reads : (s.hardwareReset).reads = s.reads := rfl
@[simp] theorem State.hardwareReset_draws : (s.hardwareReset).draws = s.draws + drawsPerContext * s.nCtx := rfl

@[simp] theorem Context.advance_valid (n : Nat) : (c.advance n).valid = c.valid := rfl
@[simp] theorem Context.advance_lsize (n : Nat) : (c.advance n).lsize = c.lsize := rfl
@[simp] theorem Context.advance_limit (n : Nat) : (c.advance n).limit = c.limit := rfl
@[simp] theorem Context.advance_base (n : Nat) : (c.advance n).base = c.base := rfl
@[simp] theorem Context.advance_pad (n : Nat) : (c.advance n).pad = c.pad := rfl
@[simp] theorem Context.advance_stale (n : Nat) : (c.advance n).stale = c.stale := rfl
@[simp] theorem Context.advance_pos (n : Nat) : (c.advance n).pos = adv c.pos n := rfl
@[simp] theorem Context.advance_own (n : Nat) : (c.advance n).own = c.own := rfl
@[simp] theorem Context.advance_plen (n : Nat) : (c.advance n).plen = c.plen := rfl
@[simp] theorem Context.advance_lbits (n : Nat) : (c.advance n).lbits = c.lbits := rfl

/-! The memory port does not see responses, context writes or read records. -/

@[simp] theorem State.deliver_addr (r : Response) (a : Nat) : (s.deliver r).addr a = s.addr a := rfl
@[simp] theorem State.deliver_memByte (r : Response) (a : Nat) : (s.deliver r).memByte a = s.memByte a := rfl
@[simp] theorem State.deliver_disturbed (r : Response) (l : List Nat) (a : Nat) :
    (s.deliver r).disturbed l a = s.disturbed l a := rfl
@[simp] theorem State.deliver_readByte (r : Response) (l : List Nat) (a d : Nat) :
    (s.deliver r).readByte l a d = s.readByte l a d := rfl
@[simp] theorem State.setCtx_addr (i : CtxId) (c : Context) (a : Nat) : (s.setCtx i c).addr a = s.addr a := rfl
@[simp] theorem State.setCtx_memByte (i : CtxId) (c : Context) (a : Nat) : (s.setCtx i c).memByte a = s.memByte a := rfl
@[simp] theorem State.setCtx_disturbed (i : CtxId) (c : Context) (l : List Nat) (a : Nat) :
    (s.setCtx i c).disturbed l a = s.disturbed l a := rfl
@[simp] theorem State.setCtx_readByte (i : CtxId) (c : Context) (l : List Nat) (a d : Nat) :
    (s.setCtx i c).readByte l a d = s.readByte l a d := rfl
@[simp] theorem State.logReads_addr (as : List Nat) (a : Nat) : (s.logReads as).addr a = s.addr a := rfl
@[simp] theorem State.logReads_memByte (as : List Nat) (a : Nat) : (s.logReads as).memByte a = s.memByte a := rfl
@[simp] theorem State.logReads_disturbed (as : List Nat) (l : List Nat) (a : Nat) :
    (s.logReads as).disturbed l a = s.disturbed l a := rfl
@[simp] theorem State.logReads_readByte (as : List Nat) (l : List Nat) (a d : Nat) :
    (s.logReads as).readByte l a d = s.readByte l a d := rfl
@[simp] theorem State.deliver_nCtx (r : Response) : (s.deliver r).nCtx = s.nCtx := rfl
@[simp] theorem State.logReads_nCtx (as : List Nat) : (s.logReads as).nCtx = s.nCtx := rfl
@[simp] theorem State.setCtx_nCtx (i : CtxId) (c : Context) : (s.setCtx i c).nCtx = s.nCtx := by
  simp [State.nCtx]
@[simp] theorem State.deliver_ctx? (r : Response) (i : CtxId) : (s.deliver r).ctx? i = s.ctx? i := rfl
@[simp] theorem State.logReads_ctx? (as : List Nat) (i : CtxId) : (s.logReads as).ctx? i = s.ctx? i := rfl

/-! The bytes of a `PAD`. -/

@[simp] theorem Pad.get_zero (j : Nat) : Pad.zero.get j = 0 := by
  unfold Pad.get Pad.zero; split <;> rfl

theorem Pad.get_ofFn (f : Nat → Byte) {j : Nat} (h : j < 8) : (Pad.ofFn f).get j = f j := by
  obtain rfl | rfl | rfl | rfl | rfl | rfl | rfl | rfl :
    j = 0 ∨ j = 1 ∨ j = 2 ∨ j = 3 ∨ j = 4 ∨ j = 5 ∨ j = 6 ∨ j = 7 := by omega
  all_goals rfl

end Sys2Proof.Machine
end

