-- ==== Sys2Proof/Laws/Ops.lean ====
section
/-! SUPPORT. What each shared operation can do, said once. -/

namespace Sys2Proof.Machine

/-! ## Derived signals (10_state R29) -/

theorem Context.own_iff {c : Context} : c.own = true ↔ c.lsize < 8 := by
  unfold Context.own; exact decide_eq_true_iff

theorem Context.not_own_iff {c : Context} : c.own = false ↔ 8 ≤ c.lsize := by
  rw [← Bool.not_eq_true, Context.own_iff, Nat.not_lt]

theorem Context.plen_eq (c : Context) : c.plen = c.limit + 8 := rfl

theorem Context.ovf_iff {c : Context} : c.ovf = true ↔ c.lsize * 8 < c.pos.toNat := by
  unfold Context.ovf; exact decide_eq_true_iff

/-! ## Contexts -/

theorem State.ctx?_isSome_iff {s : State} {i : CtxId} : (s.ctx? i).isSome ↔ i.val < s.nCtx := by
  simp [State.ctx?, State.nCtx]

theorem State.lt_of_ctx? {s : State} {i : CtxId} {c : Context} (h : s.ctx? i = some c) : i.val < s.nCtx :=
  State.ctx?_isSome_iff.1 (by simp [h])

theorem State.mem_of_ctx? {s : State} {i : CtxId} {c : Context} (h : s.ctx? i = some c) : c ∈ s.bank :=
  List.mem_of_getElem? h

theorem State.ctx?_eq_none {s : State} {i : CtxId} : s.ctx? i = none ↔ s.nCtx ≤ i.val := by
  simp [State.ctx?, State.nCtx]

theorem State.setCtx_ctx?_self {s : State} {i : CtxId} (c : Context) (h : i.val < s.nCtx) :
    (s.setCtx i c).ctx? i = some c := by
  simp [State.ctx?, h]

theorem State.setCtx_ctx?_other {s : State} {i j : CtxId} (c : Context) (h : j ≠ i) :
    (s.setCtx i c).ctx? j = s.ctx? j := by
  have : i.val ≠ j.val := fun e => h (Fin.ext e.symm)
  simp [State.ctx?, this]

theorem State.cursor?_eq_some {s : State} {i : CtxId} {c : Context} :
    s.cursor? i = some c ↔ s.Holds i c := by
  unfold State.cursor? State.Holds
  cases h : s.ctx? i with
  | none => simp
  | some d => by_cases hv : d.valid <;> simp [hv] <;> rintro rfl <;> simp [hv]

theorem State.cursor?_eq_none {s : State} {i : CtxId} : s.cursor? i = none ↔ s.HoldsNone i := by
  unfold State.cursor? State.HoldsNone
  rw [← State.ctx?_eq_none]
  cases h : s.ctx? i with
  | none => simp
  | some d => by_cases hv : d.valid <;> simp [hv]

theorem State.holds_or_holdsNone (s : State) (i : CtxId) : (∃ c, s.Holds i c) ∨ s.HoldsNone i := by
  cases h : s.cursor? i with
  | none => exact .inr (State.cursor?_eq_none.1 h)
  | some c => exact .inl ⟨c, State.cursor?_eq_some.1 h⟩

/-! ## Completing a command -/

theorem State.respond_eq (s : State) (data aux : Word) : s.respond data aux = .next (s.deliver ⟨.ok, data, aux⟩) := rfl

theorem State.raise_eq (s : State) (e : Status) : s.raise e = .next (s.deliver ⟨e, 0, 0⟩) := rfl

theorem Extraction.finish_eq (e : Extraction) (i : CtxId) (data : Word) :
    e.finish i data = .next ((e.st.setCtx i e.ctx).deliver ⟨.ok, data, 0⟩) := rfl

theorem State.withCursor_holds {s : State} {i : CtxId} {c : Context} (h : s.Holds i c) (k : Context → Result) :
    s.withCursor i k = k c := by
  rw [State.withCursor, State.cursor?_eq_some.2 h]

theorem State.withCursor_holdsNone {s : State} {i : CtxId} (h : s.HoldsNone i) (k : Context → Result) :
    s.withCursor i k = .next (s.deliver ⟨.noctx, 0, 0⟩) := by
  rw [State.withCursor, State.cursor?_eq_none.2 h]; rfl

theorem State.withWidth_legal {s : State} {max bits : Nat} (h : inWidth max bits = true) (i : CtxId)
    (k : Context → Result) : s.withWidth max bits i k = s.withCursor i k := by
  rw [State.withWidth, if_pos h]

theorem State.withWidth_illegal {s : State} {max bits : Nat} (h : inWidth max bits = false) (i : CtxId)
    (k : Context → Result) : s.withWidth max bits i k = .next (s.deliver ⟨.illegal, 0, 0⟩) := by
  rw [State.withWidth, h]; rfl

/-! ## The position adder (10_state R31) -/

theorem toNat_adv (p : Word) (n : Nat) : (adv p n).toNat = min (p.toNat + n) (2 ^ 64 - 1) := by
  rw [adv, BitVec.toNat_ofNat, Nat.mod_eq_of_lt (by omega)]

theorem adv_adv (p : Word) (m n : Nat) : adv (adv p m) n = adv p (m + n) := by
  apply BitVec.eq_of_toNat_eq
  simp only [toNat_adv]
  omega

theorem le_toNat_adv (p : Word) (n : Nat) : p.toNat ≤ (adv p n).toNat := by
  have := p.isLt
  rw [toNat_adv]; omega

/-! ## Extraction -/

@[simp] theorem extract_ctx (s : State) (c : Context) (bits : Nat) (signed : Bool) :
    (extract s c bits signed).ctx = c.advance bits := rfl

@[simp] theorem extract_st (s : State) (c : Context) (bits : Nat) (signed : Bool) :
    (extract s c bits signed).st = s.logReads (s.windowReads c c.wordOffset) := rfl

theorem u64_narrow (s : State) (c : Context) {bits : Nat} (h : bits ≤ 32) :
    u64 s c bits = extract s c bits false := by
  rw [u64, if_neg (by omega)]

theorem u64_ctx (s : State) (c : Context) (bits : Nat) : (u64 s c bits).ctx = c.advance bits := by
  unfold u64
  split
  · simp only [extract_ctx, Context.advance, adv_adv]
    congr 2; omega
  · rfl

theorem State.logReads_logReads (s : State) (as bs : List Nat) :
    (s.logReads as).logReads bs = s.logReads (as ++ bs) := by
  simp [State.logReads, Nat.add_assoc]

theorem State.logReads_nil (s : State) : s.logReads [] = s := by
  simp [State.logReads]

theorem u64_st (s : State) (c : Context) (bits : Nat) : (u64 s c bits).st = s.logReads (readsOf s c bits) := by
  unfold u64 readsOf
  split
  · simp only [extract_st, State.logReads_logReads]; rfl
  · simp

theorem length_windowReads (s : State) (c : Context) (off : Nat) :
    (s.windowReads c off).length = if c.own then 0 else 8 := by
  unfold State.windowReads; split <;> simp [Config.loadBytes]

theorem readsOf_narrow (s : State) (c : Context) {bits : Nat} (h : bits ≤ 32) :
    readsOf s c bits = s.windowReads c c.wordOffset := by
  rw [readsOf, if_neg (by omega), List.append_nil]

/-- A read command ends with its reads made and its position advanced, whatever its response. -/
theorem extract_finish (s : State) (c : Context) {bits : Nat} (h : bits ≤ 32) (signed : Bool) (i : CtxId) (d : Word) :
    (extract s c bits signed).finish i d =
      .next (((s.logReads (readsOf s c bits)).setCtx i (c.advance bits)).deliver ⟨.ok, d, 0⟩) := by
  rw [readsOf_narrow s c h]; rfl

theorem u64_finish (s : State) (c : Context) (bits : Nat) (i : CtxId) (d : Word) :
    (u64 s c bits).finish i d =
      .next (((s.logReads (readsOf s c bits)).setCtx i (c.advance bits)).deliver ⟨.ok, d, 0⟩) := by
  rw [Extraction.finish_eq, u64_st, u64_ctx]

theorem Context.wordOffset_le_limit (c : Context) : c.wordOffset ≤ c.limit := Nat.min_le_right _ _

theorem Context.wordOffset_mul_le_pos (c : Context) : c.wordOffset * 8 ≤ c.pos.toNat := by
  unfold Context.wordOffset Config.wordBytes; omega

/-- The reads of a window within `LIMIT` lie in the buffer (20_memory R47). -/
theorem State.mem_windowReads {s : State} {c : Context} (hc : c.cursorOk) {off : Nat} (ho : off ≤ c.limit) {a : Nat}
    (ha : a ∈ s.windowReads c off) : ∃ j, j < c.lsize ∧ a = s.addr (c.base + j) := by
  cases how : c.own with
  | true => simp [State.windowReads, how] at ha
  | false =>
    simp only [State.windowReads, how, Bool.false_eq_true, if_false, List.mem_map, List.mem_range] at ha
    obtain ⟨k, hk, rfl⟩ := ha
    change k < 8 at hk
    have := Context.not_own_iff.1 how
    have := hc.1
    exact ⟨off + k, by omega, rfl⟩

end Sys2Proof.Machine
end

