-- ==== Sys2Proof/Laws/Exec.lean ====
section
/-! SUPPORT. What a command can do, said once: `exec_cases`; and that each of those effects keeps the invariant. -/

namespace Sys2Proof.Machine

/-- The effects a command can have, one constructor each. -/
inductive Effect (i : Instr) (s : State) : State → Prop where
  /-- An error: one response and nothing else (60_exceptions R164). -/
  | error (e : Status) (h : e ≠ .ok) : Effect i s (s.deliver ⟨e, 0, 0⟩)
  /-- A query: `POS`, `REMBITS`, `REMBYTES`, `CHECK`. -/
  | query (c : Context) (hi : isRead i = false) (hc : s.Holds (target i) c) (d a : Word) :
      Effect i s (s.deliver ⟨.ok, d, a⟩)
  /-- A read: the reads of its windows are made, the position advances by its width. -/
  | read (c : Context) (hi : isRead i = true) (hw : i.wf = true) (hc : s.Holds (target i) c) (d : Word) :
      Effect i s (((s.logReads (readsOf s c (bitsConsumed i))).setCtx (target i)
        (c.advance (bitsConsumed i))).deliver ⟨.ok, d, 0⟩)
  /-- `SKIP`: no read is made, the position advances by its count. -/
  | skip (c : Context) (count : Word) (hi : i = .skip (target i) count) (hc : s.Holds (target i) c) :
      Effect i s ((s.setCtx (target i) (c.advance count.toNat)).deliver ⟨.ok, 0, 0⟩)
  /-- `RESET`. -/
  | rewind (c : Context) (hi : i = .reset (target i)) (hc : s.Holds (target i) c) :
      Effect i s ((s.setCtx (target i) { c with pos := 0 }).deliver ⟨.ok, 0, 0⟩)
  /-- `PEEK`. -/
  | copy (src : CtxId) (c : Context) (hi : i = .peek (target i) src) (ht : (target i).val < s.nCtx)
      (hc : s.Holds src c) : Effect i s ((s.setCtx (target i) c).deliver ⟨.ok, 0, 0⟩)
  /-- `INIT`. -/
  | construct (base len : Word) (hi : i = .init (target i) base len) (ht : (target i).val < s.nCtx)
      (hl : len.toNat < 2 ^ s.cfg.lenW) :
      Effect i s (((s.logReads (s.initReads (s.baseOf base) len.toNat)).setCtx (target i)
        (s.initContext (s.baseOf base) len.toNat)).deliver ⟨.ok, 0, 0⟩)

theorem effect_withCursor {i : Instr} {s : State} {k : Context → Result}
    (h : ∀ c, s.Holds (target i) c → ∃ t, k c = .next t ∧ Effect i s t) :
    ∃ t, s.withCursor (target i) k = .next t ∧ Effect i s t := by
  rcases s.holds_or_holdsNone (target i) with ⟨c, hc⟩ | hn
  · rw [State.withCursor_holds hc]; exact h c hc
  · exact ⟨_, State.withCursor_holdsNone hn k, .error .noctx (by decide)⟩

/-- Every read of a legal width on a cursor ends so, in every state. -/
theorem exec_read {i : Instr} {s : State} {c : Context} (hi : isRead i = true) (hw : i.wf = true)
    (hc : s.Holds (target i) c) :
    ∃ d, exec i s = .next (((s.logReads (readsOf s c (bitsConsumed i))).setCtx (target i)
      (c.advance (bitsConsumed i))).deliver ⟨.ok, d, 0⟩) := by
  cases i with
  | rdu32 _ bits =>
    exact ⟨_, (State.withWidth_legal hw _ _).trans ((State.withCursor_holds hc _).trans
      (extract_finish s c (inWidth_iff.1 hw).2 _ _ _))⟩
  | rds32 _ bits =>
    exact ⟨_, (State.withWidth_legal hw _ _).trans ((State.withCursor_holds hc _).trans
      (extract_finish s c (inWidth_iff.1 hw).2 _ _ _))⟩
  | rdu64 _ bits =>
    exact ⟨_, (State.withWidth_legal hw _ _).trans ((State.withCursor_holds hc _).trans (u64_finish s c bits _ _))⟩
  | rds64 _ bits =>
    exact ⟨_, (State.withWidth_legal hw _ _).trans ((State.withCursor_holds hc _).trans (u64_finish s c bits _ _))⟩
  | rdbit _ => exact ⟨_, (State.withCursor_holds hc _).trans (extract_finish s c (by decide) _ _ _)⟩
  | rdle16 _ => exact ⟨_, (State.withCursor_holds hc _).trans (extract_finish s c (by decide) _ _ _)⟩
  | rdle32 _ => exact ⟨_, (State.withCursor_holds hc _).trans (extract_finish s c (by decide) _ _ _)⟩
  | rdle64 _ => exact ⟨_, (State.withCursor_holds hc _).trans (u64_finish s c 64 _ _)⟩
  | init _ _ _ | reset _ | peek _ _ | skip _ _ | pos _ | rembits _ | rembytes _ | check _ => cases hi

/-- A read with a width: it answers `ILLEGAL`, answers `NOCTX`, or ends as a read. -/
theorem effect_withWidth {i : Instr} {s : State} {max bits : Nat} {k : Context → Result} (hi : isRead i = true)
    (hw : i.wf = inWidth max bits) (he : exec i s = s.withWidth max bits (target i) k) :
    ∃ t, exec i s = .next t ∧ Effect i s t := by
  cases h : inWidth max bits with
  | false => exact ⟨_, he.trans (State.withWidth_illegal h _ k), .error .illegal (by decide)⟩
  | true =>
    rcases s.holds_or_holdsNone (target i) with ⟨c, hc⟩ | hn
    · obtain ⟨d, hd⟩ := exec_read hi (hw.trans h) hc
      exact ⟨_, hd, .read c hi (hw.trans h) hc d⟩
    · rw [he, State.withWidth_legal h]
      exact ⟨_, State.withCursor_holdsNone hn k, .error .noctx (by decide)⟩

/-- A read of a fixed width: it answers `NOCTX`, or ends as a read. -/
theorem effect_fixed {i : Instr} {s : State} {k : Context → Result} (hi : isRead i = true) (hw : i.wf = true)
    (he : exec i s = s.withCursor (target i) k) : ∃ t, exec i s = .next t ∧ Effect i s t := by
  rcases s.holds_or_holdsNone (target i) with ⟨c, hc⟩ | hn
  · obtain ⟨d, hd⟩ := exec_read hi hw hc
    exact ⟨_, hd, .read c hi hw hc d⟩
  · exact ⟨_, he.trans (State.withCursor_holdsNone hn k), .error .noctx (by decide)⟩

/-- Every command answers a next state, by one of the effects above. -/
theorem exec_cases (i : Instr) (s : State) : ∃ t, exec i s = .next t ∧ Effect i s t := by
  cases i with
  | init ctx base len =>
    show ∃ t, execInit ctx base len s = .next t ∧ _
    unfold execInit
    cases h : s.ctx? ctx with
    | none => exact ⟨_, rfl, .error .noctx (by decide)⟩
    | some c =>
      by_cases hl : s.lenFits len = true
      · refine ⟨_, if_pos hl, .construct base len rfl (State.lt_of_ctx? h) ?_⟩
        simpa [State.lenFits] using hl
      · exact ⟨_, if_neg hl, .error .range (by decide)⟩
  | reset ctx => exact effect_withCursor (i := .reset ctx) fun c hc => ⟨_, rfl, .rewind c rfl hc⟩
  | peek dst src =>
    show ∃ t, execPeek dst src s = .next t ∧ _
    unfold execPeek
    cases h : s.ctx? dst with
    | none => exact ⟨_, rfl, .error .noctx (by decide)⟩
    | some d =>
      rcases s.holds_or_holdsNone src with ⟨c, hc⟩ | hn
      · exact ⟨_, State.withCursor_holds hc _, .copy src c rfl (State.lt_of_ctx? h) hc⟩
      · exact ⟨_, State.withCursor_holdsNone hn _, .error .noctx (by decide)⟩
  | skip ctx count => exact effect_withCursor (i := .skip ctx count) fun c hc => ⟨_, rfl, .skip c count rfl hc⟩
  | rdu32 ctx bits => exact effect_withWidth rfl rfl rfl
  | rds32 ctx bits => exact effect_withWidth rfl rfl rfl
  | rdu64 ctx bits => exact effect_withWidth rfl rfl rfl
  | rds64 ctx bits => exact effect_withWidth rfl rfl rfl
  | rdbit ctx => exact effect_fixed rfl rfl rfl
  | rdle16 ctx => exact effect_fixed rfl rfl rfl
  | rdle32 ctx => exact effect_fixed rfl rfl rfl
  | rdle64 ctx => exact effect_fixed rfl rfl rfl
  | pos ctx => exact effect_withCursor (i := .pos ctx) fun c hc => ⟨_, rfl, .query c rfl hc _ _⟩
  | rembits ctx => exact effect_withCursor (i := .rembits ctx) fun c hc => ⟨_, rfl, .query c rfl hc _ _⟩
  | rembytes ctx => exact effect_withCursor (i := .rembytes ctx) fun c hc => ⟨_, rfl, .query c rfl hc _ _⟩
  | check ctx => exact effect_withCursor (i := .check ctx) fun c hc => ⟨_, rfl, .query c rfl hc _ _⟩

/-- The inversion of a next state. -/
theorem exec_effect {i : Instr} {s t : State} (h : exec i s = .next t) : Effect i s t := by
  obtain ⟨u, hu, he⟩ := exec_cases i s
  rw [hu] at h
  cases h
  exact he

/-! ## The invariant under the effects -/

theorem State.Inv.deliver {s : State} (h : s.Inv) (r : Response) : (s.deliver r).Inv :=
  ⟨h.params, h.fits, h.cursors, h.noCursorInReset, h.memWf, h.memBelow, h.pendingBelow⟩

theorem State.Inv.logReads {s : State} (h : s.Inv) (as : List Nat) : (s.logReads as).Inv :=
  ⟨h.params, h.fits, h.cursors, h.noCursorInReset, h.memWf, h.memBelow, h.pendingBelow⟩

theorem State.Inv.withInbox {s : State} (h : s.Inv) (q : List HostEvent) : ({ s with inbox := q } : State).Inv :=
  ⟨h.params, h.fits, h.cursors, h.noCursorInReset, h.memWf, h.memBelow, h.pendingBelow⟩

/-- Writing a context that fits and is a cursor keeps the invariant, while `RST` is deasserted. -/
theorem State.Inv.setCtx {s : State} (h : s.Inv) (hr : s.rst = false) (i : CtxId) {c : Context} (hf : c.fits s.cfg)
    (hc : c.valid = true → c.cursorOk) : (s.setCtx i c).Inv where
  params := by have := h.params; simpa [State.params] using this
  fits d hd := by
    rcases List.mem_or_eq_of_mem_set hd with hd | rfl
    · exact h.fits d hd
    · exact hf
  cursors d hd hv := by
    rcases List.mem_or_eq_of_mem_set hd with hd | rfl
    · exact h.cursors d hd hv
    · exact hc hv
  noCursorInReset hr' := by simp [hr] at hr'
  memWf := h.memWf
  memBelow := h.memBelow
  pendingBelow := h.pendingBelow

theorem State.Inv.fits_of_ctx? {s : State} (h : s.Inv) {i : CtxId} {c : Context} (hc : s.ctx? i = some c) :
    c.fits s.cfg := h.fits c (State.mem_of_ctx? hc)

theorem State.Inv.cursorOk_of_holds {s : State} (h : s.Inv) {i : CtxId} {c : Context} (hc : s.Holds i c) :
    c.cursorOk := h.cursors c (State.mem_of_ctx? hc.1) hc.2

/-- A state with a cursor is not in reset. -/
theorem State.Inv.rst_of_holds {s : State} (h : s.Inv) {i : CtxId} {c : Context} (hc : s.Holds i c) :
    s.rst = false := by
  cases hr : s.rst with
  | false => rfl
  | true =>
    have := h.noCursorInReset hr c (State.mem_of_ctx? hc.1)
    rw [hc.2] at this; cases this

end Sys2Proof.Machine
end

