-- ==== Sys2Proof/Laws/Memory.lean ====
section
/-! SUPPORT. Buffer memory: read after write, and the canonical form every operation keeps. -/

namespace Sys2Proof.Machine

@[simp] theorem Memory.read_nil (a : Nat) : Memory.read [] a = Config.unlistedByte := rfl

theorem Memory.wfFrom_cons {lo k : Nat} {v : Byte} {m : List Host.Cell} :
    Memory.wfFrom lo ((k, v) :: m) = true ↔
      lo ≤ k ∧ v ≠ Config.unlistedByte ∧ Memory.wfFrom (k + 1) m = true := by
  simp [Memory.wfFrom, and_assoc]

theorem Memory.wfFrom_mono {lo lo' : Nat} {m : List Host.Cell} (h : lo' ≤ lo)
    (hm : Memory.wfFrom lo m = true) : Memory.wfFrom lo' m = true := by
  cases m with
  | nil => rfl
  | cons c m => obtain ⟨k, v⟩ := c; rw [wfFrom_cons] at *; exact ⟨by omega, hm.2⟩

theorem Memory.read_below_wfFrom {lo a : Nat} {m : List Host.Cell} (hm : Memory.wfFrom lo m = true)
    (ha : a < lo) : Memory.read m a = Config.unlistedByte := by
  induction m generalizing lo with
  | nil => rfl
  | cons c m ih =>
    obtain ⟨k, v⟩ := c
    rw [wfFrom_cons] at hm
    rw [Memory.read, if_neg (by omega)]
    exact ih hm.2.2 (by omega)

theorem Memory.read_write_other {a a' : Nat} (m : List Host.Cell) (b : Byte) (h : a' ≠ a) :
    Memory.read (Memory.write m a b) a' = Memory.read m a' := by
  induction m with
  | nil => by_cases hb : b = Config.unlistedByte <;> simp [Memory.write, Memory.read, hb, h.symm]
  | cons c m ih =>
    obtain ⟨k, v⟩ := c
    unfold Memory.write
    split_ifs <;> simp_all [Memory.read, eq_comm]

theorem Memory.read_write_same {a lo : Nat} {m : List Host.Cell} (b : Byte) (hm : Memory.wfFrom lo m = true) :
    Memory.read (Memory.write m a b) a = b := by
  induction m generalizing lo with
  | nil => by_cases hb : b = Config.unlistedByte <;> simp [Memory.write, Memory.read, hb]
  | cons c m ih =>
    obtain ⟨k, v⟩ := c
    rw [wfFrom_cons] at hm
    unfold Memory.write
    split_ifs with h1 h2 h3 h4
    · subst h2
      rw [Memory.read, if_neg (by omega)]
      exact read_below_wfFrom hm.2.2 (by omega)
    · simp [Memory.read]
    · subst h4 h3
      exact read_below_wfFrom hm.2.2 (by omega)
    · simp [Memory.read]
    · rw [Memory.read, if_neg (by omega)]
      exact ih hm.2.2

theorem Memory.wfFrom_write {lo a : Nat} {m : List Host.Cell} (b : Byte) (ha : lo ≤ a)
    (hm : Memory.wfFrom lo m = true) : Memory.wfFrom lo (Memory.write m a b) = true := by
  induction m generalizing lo with
  | nil =>
    unfold Memory.write
    split_ifs with hb
    · rfl
    · rw [wfFrom_cons]; exact ⟨ha, hb, rfl⟩
  | cons c m ih =>
    obtain ⟨k, v⟩ := c
    have hm' := hm
    rw [wfFrom_cons] at hm
    unfold Memory.write
    split_ifs with h1 h2 h3 h4
    · exact hm'
    · rw [wfFrom_cons, wfFrom_cons]; exact ⟨ha, h2, by omega, hm.2⟩
    · exact wfFrom_mono (by omega) hm.2.2
    · rw [wfFrom_cons]; exact ⟨ha, h4, h3 ▸ hm.2.2⟩
    · rw [wfFrom_cons]; exact ⟨hm.1, hm.2.1, ih (by omega) hm.2.2⟩

theorem Memory.wf_write {m : List Host.Cell} (a : Nat) (b : Byte) (hm : Memory.wf m = true) :
    Memory.wf (Memory.write m a b) = true := Memory.wfFrom_write b (Nat.zero_le a) hm

theorem Memory.below_cons {n : Nat} {c : Host.Cell} {m : List Host.Cell} :
    Memory.below n (c :: m) = true ↔ c.1 < n ∧ Memory.below n m = true := by
  simp [Memory.below]

theorem Memory.below_write {n a : Nat} {m : List Host.Cell} (b : Byte) (ha : a < n)
    (hm : Memory.below n m = true) : Memory.below n (Memory.write m a b) = true := by
  induction m with
  | nil => unfold Memory.write; split_ifs <;> simp [Memory.below, ha]
  | cons c m ih =>
    obtain ⟨k, v⟩ := c
    rw [below_cons] at hm
    unfold Memory.write
    split_ifs <;> simp_all [below_cons]

/-- Every host write lands in canonical form, inside the address space. -/
theorem Memory.wf_writeAll {n : Nat} {m ws : List Host.Cell} (hm : Memory.wf m = true)
    (hb : Memory.below n m = true) (hw : Memory.below n ws = true) :
    Memory.wf (Memory.writeAll m ws) = true ∧ Memory.below n (Memory.writeAll m ws) = true := by
  induction ws generalizing m with
  | nil => exact ⟨hm, hb⟩
  | cons w ws ih =>
    rw [below_cons] at hw
    exact ih (wf_write w.1 w.2 hm) (below_write w.2 hw.1 hb) hw.2

/-- Canonical memories that read the same are equal data. -/
theorem Memory.ext_of_read {lo : Nat} {m m' : List Host.Cell} (hm : Memory.wfFrom lo m = true)
    (hm' : Memory.wfFrom lo m' = true) (h : ∀ a, Memory.read m a = Memory.read m' a) : m = m' := by
  induction m generalizing lo m' with
  | nil =>
    cases m' with
    | nil => rfl
    | cons c' m' =>
      obtain ⟨k', v'⟩ := c'
      rw [wfFrom_cons] at hm'
      exact absurd (by simpa [Memory.read] using (h k').symm) hm'.2.1
  | cons c m ih =>
    obtain ⟨k, v⟩ := c
    rw [wfFrom_cons] at hm
    cases m' with
    | nil => exact absurd (by simpa [Memory.read] using h k) hm.2.1
    | cons c' m' =>
      obtain ⟨k', v'⟩ := c'
      have hm'' := hm'
      rw [wfFrom_cons] at hm'
      have hk : k = k' := by
        rcases Nat.lt_trichotomy k k' with hlt | heq | hgt
        · have := h k
          rw [Memory.read, if_pos rfl, read_below_wfFrom (lo := k') (wfFrom_cons.2 ⟨le_rfl, hm'.2⟩) hlt] at this
          exact absurd this hm.2.1
        · exact heq
        · have := h k'
          rw [read_below_wfFrom (lo := k) (wfFrom_cons.2 ⟨le_rfl, hm.2⟩) hgt, Memory.read, if_pos rfl] at this
          exact absurd this.symm hm'.2.1
      subst hk
      have hv : v = v' := by simpa [Memory.read] using h k
      subst hv
      have : m = m' := ih hm.2.2 hm'.2.2 fun a => by
        by_cases ha : a < k + 1
        · rw [read_below_wfFrom hm.2.2 ha, read_below_wfFrom hm'.2.2 ha]
        · have := h a
          rwa [Memory.read, Memory.read, if_neg (by omega), if_neg (by omega)] at this
      rw [this]

end Sys2Proof.Machine
end

