-- ==== Sys2Proof/Laws/PerInstr.lean ====
section
/-! SUPPORT. Per-instruction laws of the encoder: the family `TableRow`. -/

namespace Sys2Proof.Laws.TableRow

/-- The encoded word carries the opcode and is selected by the mask of a row of the opcode map with that opcode: all its
must-be-zero fields are zero (30_encoding R63, R66). -/
def Statement (i : Instr) : Prop :=
  i.wf = true → ∃ r ∈ rows, r.opc = opcField (commandWord i) ∧ r.selects (commandWord i) = true

theorem of_layout {i : Instr} {s c : CtxId} {w : BitVec 6} {o : BitVec 8} {f : Format}
    (hi : commandWord i = layout s c w o) (hr : ∃ r ∈ rows, r.opc = o ∧ r.format = f)
    (hm : layout s c w o &&& f.mask = o.setWidth 32) :
    ∃ r ∈ rows, r.opc = opcField (commandWord i) ∧ r.selects (commandWord i) = true := by
  obtain ⟨r, hr, rfl, rfl⟩ := hr
  refine ⟨r, hr, by simp [hi], ?_⟩
  rw [hi, Row.selects, hm, Row.matchWord, beq_self_eq_true]

theorem init (c : CtxId) (a : Word) (l : Word) : Statement (.init c a l) := fun _ =>
  of_layout (o := 0x01) rfl (by simp [rows]) (layout_mask_n _ _)

theorem reset (c : CtxId) : Statement (.reset c) := fun _ =>
  of_layout (o := 0x02) rfl (by simp [rows]) (layout_mask_n _ _)

theorem peek (d : CtxId) (s : CtxId) : Statement (.peek d s) := fun _ =>
  of_layout (o := 0x03) rfl (by simp [rows]) (layout_mask_p _ _ _)

theorem skip (c : CtxId) (n : Word) : Statement (.skip c n) := fun _ =>
  of_layout (o := 0x04) rfl (by simp [rows]) (layout_mask_n _ _)

theorem rdu32 (c : CtxId) (bits : Nat) : Statement (.rdu32 c bits) := fun h =>
  of_layout (o := 0x08) rfl (by simp [rows]) (layout_mask_w32 _ _ _ (wm1Of_bit5 h))

theorem rds32 (c : CtxId) (bits : Nat) : Statement (.rds32 c bits) := fun h =>
  of_layout (o := 0x09) rfl (by simp [rows]) (layout_mask_w32 _ _ _ (wm1Of_bit5 h))

theorem rdu64 (c : CtxId) (bits : Nat) : Statement (.rdu64 c bits) := fun _ =>
  of_layout (o := 0x0A) rfl (by simp [rows]) (layout_mask_w64 _ _ _)

theorem rds64 (c : CtxId) (bits : Nat) : Statement (.rds64 c bits) := fun _ =>
  of_layout (o := 0x0B) rfl (by simp [rows]) (layout_mask_w64 _ _ _)

theorem rdbit (c : CtxId) : Statement (.rdbit c) := fun _ =>
  of_layout (o := 0x0C) rfl (by simp [rows]) (layout_mask_n _ _)

theorem rdle16 (c : CtxId) : Statement (.rdle16 c) := fun _ =>
  of_layout (o := 0x10) rfl (by simp [rows]) (layout_mask_n _ _)

theorem rdle32 (c : CtxId) : Statement (.rdle32 c) := fun _ =>
  of_layout (o := 0x11) rfl (by simp [rows]) (layout_mask_n _ _)

theorem rdle64 (c : CtxId) : Statement (.rdle64 c) := fun _ =>
  of_layout (o := 0x12) rfl (by simp [rows]) (layout_mask_n _ _)

theorem pos (c : CtxId) : Statement (.pos c) := fun _ =>
  of_layout (o := 0x18) rfl (by simp [rows]) (layout_mask_n _ _)

theorem rembits (c : CtxId) : Statement (.rembits c) := fun _ =>
  of_layout (o := 0x19) rfl (by simp [rows]) (layout_mask_n _ _)

theorem rembytes (c : CtxId) : Statement (.rembytes c) := fun _ =>
  of_layout (o := 0x1A) rfl (by simp [rows]) (layout_mask_n _ _)

theorem check (c : CtxId) : Statement (.check c) := fun _ =>
  of_layout (o := 0x1B) rfl (by simp [rows]) (layout_mask_n _ _)

end Sys2Proof.Laws.TableRow
end

