-- ==== Sys2Proof/Laws/Stream.lean ====
section
/-! SUPPORT. The window load and the extraction datapath as reads of the buffer's bit stream (20_memory R43, 41_extraction
R91, R96). -/

namespace Sys2Proof.Machine

/-! ## Bits of a sum -/

/-- A number written by its bits, the first one most significant. -/
theorem testBit_bitSum (f : Nat → Bool) (n i : Nat) :
    (∑ k ∈ Finset.range n, (f k).toNat * 2 ^ (n - 1 - k)).testBit i = (decide (i < n) && f (n - 1 - i)) := by
  induction n generalizing i with
  | zero => simp
  | succ n ih =>
    have hstep : ∑ k ∈ Finset.range (n + 1), (f k).toNat * 2 ^ (n + 1 - 1 - k)
        = 2 * (∑ k ∈ Finset.range n, (f k).toNat * 2 ^ (n - 1 - k)) + (f n).toNat := by
      rw [Finset.sum_range_succ, Finset.mul_sum]
      congr 1
      · refine Finset.sum_congr rfl fun k hk => ?_
        have hk : k < n := Finset.mem_range.1 hk
        rw [show n + 1 - 1 - k = (n - 1 - k) + 1 by omega, pow_succ]; ring
      · simp
    rw [hstep]
    cases i with
    | zero => cases h : f n <;> simp [h, Nat.testBit_zero, Nat.add_mod]
    | succ i =>
      have hdiv : (2 * (∑ k ∈ Finset.range n, (f k).toNat * 2 ^ (n - 1 - k)) + (f n).toNat) / 2
          = ∑ k ∈ Finset.range n, (f k).toNat * 2 ^ (n - 1 - k) := by
        cases f n <;> simp; omega
      rw [Nat.testBit_succ, hdiv, ih]
      simp [show n - 1 - i = n - (i + 1) by omega]

theorem bitSum_lt (f : Nat → Bool) (n : Nat) :
    (∑ k ∈ Finset.range n, (f k).toNat * 2 ^ (n - 1 - k)) < 2 ^ n := by
  apply Nat.lt_pow_two_of_testBit
  intro i hi
  rw [testBit_bitSum]; simp; omega

theorem State.streamValue_testBit (s : State) (c : Context) (p n i : Nat) :
    (s.streamValue c p n).testBit i = (decide (i < n) && s.logicalBit c (p + (n - 1 - i))) :=
  testBit_bitSum (fun k => s.logicalBit c (p + k)) n i

theorem State.streamValue_lt (s : State) (c : Context) (p n : Nat) : s.streamValue c p n < 2 ^ n :=
  bitSum_lt (fun k => s.logicalBit c (p + k)) n

/-- Past the logical end every bit reads 0 (41_extraction R93). -/
theorem State.streamValue_past_end (s : State) {c : Context} {p : Nat} (h : c.lbits ≤ p) (n : Nat) :
    s.streamValue c p n = 0 := by
  apply Nat.eq_of_testBit_eq
  intro i
  rw [streamValue_testBit, State.logicalBit, if_neg (by omega)]; simp

/-- A read of `m + n` bits is a read of `m` bits and then one of `n` (20_memory R45). -/
theorem State.streamValue_add (s : State) (c : Context) (p m n : Nat) :
    s.streamValue c p (m + n) = s.streamValue c p m * 2 ^ n + s.streamValue c (p + m) n := by
  apply Nat.eq_of_testBit_eq
  intro i
  rw [streamValue_testBit, Nat.mul_comm, Nat.testBit_two_pow_mul_add _ (streamValue_lt s c (p + m) n)]
  split
  · rename_i h
    rw [streamValue_testBit]
    simp only [h, decide_true, Bool.true_and]
    rw [decide_eq_true (by omega), Bool.true_and]
    congr 1; omega
  · rename_i h
    rw [streamValue_testBit]
    by_cases hi : i < m + n
    · rw [decide_eq_true hi, decide_eq_true (by omega : i - n < m)]
      congr 2; omega
    · rw [decide_eq_false hi, decide_eq_false (by omega : ¬ i - n < m)]; simp

/-! ## The window load -/

/-- Bit `63 − q` of a window is bit `q` of its eight bytes, most significant bit of the first byte first
(20_memory R43, 00_scope R7). -/
theorem State.load64BE_getLsbD (s : State) (c : Context) (off q : Nat) (h : q < 64) :
    (s.load64BE c off).getLsbD (63 - q) =
      (s.physByte c (off + q / 8) (s.draws + q / 8)).getLsbD (7 - q % 8) := by
  obtain ⟨k, r, hk, hr, rfl⟩ : ∃ k r, k < 8 ∧ r < 8 ∧ q = 8 * k + r := ⟨q / 8, q % 8, by omega, by omega, by omega⟩
  rw [show (8 * k + r) / 8 = k by omega, show (8 * k + r) % 8 = r by omega]
  unfold State.load64BE
  obtain rfl | rfl | rfl | rfl | rfl | rfl | rfl | rfl :
    k = 0 ∨ k = 1 ∨ k = 2 ∨ k = 3 ∨ k = 4 ∨ k = 5 ∨ k = 6 ∨ k = 7 := by omega
  all_goals
    simp only [BitVec.getLsbD_append]
    split_ifs <;> first | omega | (congr 1; omega)

/-- An undisturbed buffer reads as it stands. -/
theorem State.physByte_undisturbed {s : State} {c : Context} (hu : s.Undisturbed c) {j : Nat}
    (hj : c.own = true ∨ j < c.lsize) (d : Nat) : s.physByte c j d = s.bufferByte c j := by
  unfold State.physByte State.bufferByte
  cases ho : c.own with
  | true => rfl
  | false =>
    have hj : j < c.lsize := by simpa [ho] using hj
    simp [State.readByte, hu ho j hj]

/-- Inside the physical buffer the bits past the logical end are `PAD` zeros (41_extraction R93). -/
theorem State.logicalBit_eq_bufferBit (s : State) {c : Context} (hc : c.cursorOk) {q : Nat} (hq : q < c.plen * 8) :
    s.logicalBit c q = s.bufferBit c q := by
  unfold State.logicalBit
  split
  · rfl
  · rename_i h
    have hlim := hc.1
    rw [Context.plen_eq] at hq
    rw [Context.lbits] at h
    have hsmall : c.lsize < 8 := by omega
    have hown : c.own = true := Context.own_iff.2 hsmall
    have : c.pad.get (q / 8) = 0 := hc.2 _ (by omega) (.inr (by omega))
    simp [State.bufferBit, State.bufferByte, hown, this]

/-! ## The datapath reads the stream (41_extraction R93) -/

/-- The window after its left shift: the logical bits from the position on, as far as the window reaches; past it the
shifter's zeros, which are past the logical end. -/
theorem shifted_window_getLsbD {s : State} {c : Context} (hc : c.cursorOk) (hu : s.Undisturbed c) {k : Nat}
    (hk : k < 32) :
    (shl64 (s.load64BE c c.wordOffset) (c.pos.toNat - c.wordOffset * 8)).getLsbD (63 - k) =
      s.logicalBit c (c.pos.toNat + k) := by
  have hwo := c.wordOffset_le_limit
  have hpos := c.wordOffset_mul_le_pos
  generalize hsh : c.pos.toNat - c.wordOffset * 8 = sh
  by_cases hin : sh + k < 64
  · have hq : c.pos.toNat + k = c.wordOffset * 8 + (sh + k) := by omega
    have hbits : (shl64 (s.load64BE c c.wordOffset) sh).getLsbD (63 - k) =
        (s.load64BE c c.wordOffset).getLsbD (63 - (sh + k)) := by
      rw [shl64, if_pos (by omega), BitVec.getLsbD_shiftLeft, show 63 - k - sh = 63 - (sh + k) by omega]
      simp; omega
    have hplen : c.plen = c.limit + 8 := rfl
    rw [hbits, State.load64BE_getLsbD _ _ _ _ hin, State.logicalBit_eq_bufferBit s hc (by omega), State.bufferBit,
      show (c.pos.toNat + k) / 8 = c.wordOffset + (sh + k) / 8 by omega,
      show (c.pos.toNat + k) % 8 = (sh + k) % 8 by omega, State.physByte_undisturbed hu]
    cases ho : c.own with
    | true => exact .inl rfl
    | false =>
      right
      have hlim := hc.1
      have := Context.not_own_iff.1 ho
      omega
  · have hlim : c.wordOffset = c.limit := by
      unfold Context.wordOffset Config.wordBytes at *
      omega
    have hz : (shl64 (s.load64BE c c.wordOffset) sh).getLsbD (63 - k) = false := by
      unfold shl64
      split
      · rw [BitVec.getLsbD_shiftLeft]; simp; omega
      · simp
    have hpast : ¬ c.pos.toNat + k < c.lbits := by
      have := hc.1
      unfold Context.lbits; omega
    rw [hz, State.logicalBit, if_neg hpast]

/-- The unsigned extraction returns the next `bits` logical bits (41_extraction R93). -/
theorem extract_unsigned_value {s : State} {c : Context} (hc : c.cursorOk) (hu : s.Undisturbed c) {bits : Nat}
    (h1 : 1 ≤ bits) (h2 : bits ≤ 32) :
    (extract s c bits false).value = BitVec.ofNat 64 (s.streamValue c c.pos.toNat bits) := by
  apply BitVec.eq_of_getLsbD_eq
  intro i hi
  have hval : (extract s c bits false).value =
      srl64 (shl64 (s.load64BE c c.wordOffset) (c.pos.toNat - c.wordOffset * 8)) (64 - bits) := rfl
  rw [hval, srl64, if_pos (by omega), BitVec.getLsbD_ushiftRight, BitVec.getLsbD_ofNat,
    State.streamValue_testBit, decide_eq_true hi, Bool.true_and]
  by_cases hb : i < bits
  · rw [decide_eq_true hb, Bool.true_and, show 64 - bits + i = 63 - (bits - 1 - i) by omega]
    exact shifted_window_getLsbD hc hu (by omega)
  · rw [decide_eq_false hb, Bool.false_and]
    exact BitVec.getLsbD_of_ge _ _ (by omega)

/-- The signed extraction returns the same bits, sign-extended (41_extraction R91, R94). -/
theorem extract_signed_value {s : State} {c : Context} (hc : c.cursorOk) (hu : s.Undisturbed c) {bits : Nat}
    (h1 : 1 ≤ bits) (h2 : bits ≤ 32) :
    (extract s c bits true).value = (BitVec.ofNat bits (s.streamValue c c.pos.toNat bits)).signExtend 64 := by
  apply BitVec.eq_of_getLsbD_eq
  intro i hi
  have hval : (extract s c bits true).value =
      sra64 (shl64 (s.load64BE c c.wordOffset) (c.pos.toNat - c.wordOffset * 8)) (64 - bits) := rfl
  have hmsb : (BitVec.ofNat bits (s.streamValue c c.pos.toNat bits)).msb = s.logicalBit c c.pos.toNat := by
    rw [BitVec.msb_eq_getLsbD_last, BitVec.getLsbD_ofNat, State.streamValue_testBit]
    simp only [show bits - 1 < bits by omega, decide_true, Bool.true_and]
    congr 1; omega
  have htop := shifted_window_getLsbD hc hu (k := 0) (by omega)
  rw [hval, sra64, if_pos (by omega), BitVec.getLsbD_sshiftRight, BitVec.getLsbD_signExtend, decide_eq_true hi]
  simp only [Bool.true_and, hmsb]
  by_cases hb : i < bits
  · rw [if_pos hb, if_pos (by omega), BitVec.getLsbD_ofNat, State.streamValue_testBit, decide_eq_true hb]
    rw [show 64 - bits + i = 63 - (bits - 1 - i) by omega, shifted_window_getLsbD hc hu (by omega)]
    simp; omega
  · rw [if_neg hb, if_neg (by omega), BitVec.msb_eq_getLsbD_last]
    rw [show 64 - 1 = 63 - 0 by omega, htop]
    simp; omega

/-! ## 64-bit reads (41_extraction R96) -/

theorem State.streamValue_logReads_advance (s : State) (c : Context) (as : List Nat) (m p n : Nat) :
    (s.logReads as).streamValue (c.advance m) p n = s.streamValue c p n := rfl

theorem State.Undisturbed.advance {s : State} {c : Context} (h : s.Undisturbed c) (as : List Nat) (m : Nat) :
    (s.logReads as).Undisturbed (c.advance m) := h

theorem Context.cursorOk.advance {c : Context} (h : c.cursorOk) (m : Nat) : (c.advance m).cursorOk := h

/-- The two windows of a 64-bit read return its `bits` logical bits, also where the position saturates. -/
theorem u64_value {s : State} {c : Context} (hc : c.cursorOk) (hu : s.Undisturbed c) (hl : c.lbits < 2 ^ 64 - 1)
    {bits : Nat} (h1 : 1 ≤ bits) (h2 : bits ≤ 64) :
    (u64 s c bits).value = BitVec.ofNat 64 (s.streamValue c c.pos.toNat bits) := by
  by_cases hb : bits ≤ 32
  · rw [u64_narrow s c hb, extract_unsigned_value hc hu h1 hb]
  · have hhi := extract_unsigned_value hc hu (bits := bits - 32) (by omega) (by omega)
    have hlo := extract_unsigned_value (hc.advance (bits - 32))
      (hu.advance (s.windowReads c c.wordOffset) (bits - 32)) (bits := 32) (by omega) (by omega)
    rw [State.streamValue_logReads_advance] at hlo
    have hval : (u64 s c bits).value = shl64 (extract s c (bits - 32) false).value 32 |||
        (extract (s.logReads (s.windowReads c c.wordOffset)) (c.advance (bits - 32)) 32 false).value := by
      rw [u64, if_pos (by omega)]; rfl
    have hnext : s.streamValue c (c.advance (bits - 32)).pos.toNat 32 =
        s.streamValue c (c.pos.toNat + (bits - 32)) 32 := by
      rw [Context.advance_pos, toNat_adv]
      by_cases hsat : c.pos.toNat + (bits - 32) ≤ 2 ^ 64 - 1
      · rw [Nat.min_eq_left hsat]
      · rw [State.streamValue_past_end s (by omega), State.streamValue_past_end s (by omega)]
    have hsum := State.streamValue_add s c c.pos.toNat (bits - 32) 32
    rw [show bits - 32 + 32 = bits by omega] at hsum
    have hlt1 := State.streamValue_lt s c c.pos.toNat (bits - 32)
    have hlt1' : s.streamValue c c.pos.toNat (bits - 32) < 2 ^ 32 :=
      lt_of_lt_of_le hlt1 (Nat.pow_le_pow_right (by norm_num) (by omega))
    have hlt2 := State.streamValue_lt s c (c.pos.toNat + (bits - 32)) 32
    rw [hval, hhi, hlo, hnext, hsum, shl64, if_pos (by omega)]
    generalize s.streamValue c c.pos.toNat (bits - 32) = x at *
    generalize s.streamValue c (c.pos.toNat + (bits - 32)) 32 = y at *
    apply BitVec.eq_of_toNat_eq
    rw [BitVec.toNat_or, BitVec.toNat_shiftLeft, BitVec.toNat_ofNat, BitVec.toNat_ofNat, BitVec.toNat_ofNat,
      Nat.shiftLeft_eq, Nat.mod_eq_of_lt (show x < 2 ^ 64 by omega), Nat.mod_eq_of_lt (show y < 2 ^ 64 by omega),
      Nat.mod_eq_of_lt (show x * 2 ^ 32 < 2 ^ 64 by omega), Nat.mod_eq_of_lt (show x * 2 ^ 32 + y < 2 ^ 64 by omega),
      Nat.mul_comm x, Nat.two_pow_add_eq_or_of_lt hlt2]

end Sys2Proof.Machine
end

