-- ==== Sys2Proof/Tests/Slice0.lean ====
section
/-! SUPPORT. Tests whose expected results stand in spec/ (30_encoding R66, R69, 95_test_vectors: each cites its vector),
and the witnesses: for every statement with hypotheses, concrete values that meet all of them. -/

namespace Sys2Proof.Tests

open Sys2Proof.Machine

/-! ## States of 95_test_vectors -/

/-- The cells of F3 at `0x1000` and B10 at `0x2000`. -/
def cells : List Host.Cell :=
  [(0x1000, 0xFF), (0x1001, 0xFF), (0x1002, 0xFF), (0x2000, 0xA5), (0x2001, 0x3C), (0x2002, 0xF0), (0x2003, 0x0F),
    (0x2004, 0x81), (0x2005, 0x7E), (0x2006, 0x12), (0x2007, 0x34), (0x2008, 0x56), (0x2009, 0x78)]

/-- The cursor of B10 at a position: aliased, `PLEN` 10. -/
def b10 (p : Word) : Context := ⟨true, p, 10, 2, 0x2000, Pad.zero, []⟩

/-- The cursor of F3 at a position: owned, `PLEN` 8. -/
def f3 (p : Word) : Context := ⟨true, p, 3, 0, 0x1000, ⟨0xFF, 0xFF, 0xFF, 0, 0, 0, 0, 0⟩, []⟩

/-- `ctx[0]` is B10 at `p`, `ctx[1]` is F3 at `q`, the other two hold no cursor. -/
def demo (p q : Word) : State :=
  { State.reset with mem := cells, bank := [b10 p, f3 q, Context.afterReset, Context.afterReset] }

/-- The same with one event queued. -/
def demoWith (p : Word) (e : HostEvent) : State := { demo p 0 with inbox := [e] }

/-- The responses, the contexts and the number of byte reads after a command. -/
def after (r : Result) : Option (List Response × List Context × Nat) :=
  match r with
  | .next t => some (t.responses, t.bank, t.reads.length)
  | .fault _ => none
  | .refused _ => none

/-- What a read of `ctx[0]` leaves: one `OK` response, B10 at `p`, that many byte reads. -/
def b10After (data p : Word) (n : Nat) : Option (List Response × List Context × Nat) :=
  some ([⟨.ok, data, 0⟩], [b10 p, f3 0, Context.afterReset, Context.afterReset], n)

/-- What a read of `ctx[1]` leaves: no byte read. -/
def f3After (data q : Word) : Option (List Response × List Context × Nat) :=
  some ([⟨.ok, data, 0⟩], [b10 0, f3 q, Context.afterReset, Context.afterReset], 0)

/-- What a query of `ctx[0]` at `p` leaves. -/
def queryAfter (data aux p : Word) : Option (List Response × List Context × Nat) :=
  some ([⟨.ok, data, aux⟩], [b10 p, f3 0, Context.afterReset, Context.afterReset], 0)

/-! ## Well-formedness (30_encoding R64) -/

theorem test_wf_rdu32_width_0 : (Instr.rdu32 0 0).wf = false := by decide
theorem test_wf_rdu32_width_33 : (Instr.rdu32 0 33).wf = false := by decide
theorem test_wf_rds32_width_0 : (Instr.rds32 0 0).wf = false := by decide
theorem test_wf_rds32_width_33 : (Instr.rds32 0 33).wf = false := by decide
theorem test_wf_rdu64_width_0 : (Instr.rdu64 0 0).wf = false := by decide
theorem test_wf_rdu64_width_65 : (Instr.rdu64 0 65).wf = false := by decide
theorem test_wf_rds64_width_0 : (Instr.rds64 0 0).wf = false := by decide
theorem test_wf_rds64_width_65 : (Instr.rds64 0 65).wf = false := by decide

/-! ## Decoding: one word of each row, written out from 30_encoding R61 and R66 -/

/-- `RES1 SCTX CTX RES0 WM1 OPC`, most significant field first: each constructor's word, bit by bit. -/
theorem test_decode_init : decode ⟨0b00000000_0000_0101_00_000000_00000001, 0x1000, 3⟩ = .ok (.init 5 0x1000 3) := by
  decide
theorem test_decode_reset : decode ⟨0b00000000_0000_0010_00_000000_00000010, 0, 0⟩ = .ok (.reset 2) := by decide
theorem test_decode_peek : decode ⟨0b00000000_0011_0001_00_000000_00000011, 0, 0⟩ = .ok (.peek 1 3) := by decide
theorem test_decode_skip : decode ⟨0b00000000_0000_1111_00_000000_00000100, 6, 9⟩ = .ok (.skip 15 6) := by decide
theorem test_decode_rdu32 : decode ⟨0b00000000_0000_0010_00_001000_00001000, 7, 7⟩ = .ok (.rdu32 2 9) := by decide
theorem test_decode_rds32 : decode ⟨0b00000000_0000_0000_00_011111_00001001, 0, 0⟩ = .ok (.rds32 0 32) := by decide
theorem test_decode_rdu64 : decode ⟨0b00000000_0000_0000_00_100000_00001010, 0, 0⟩ = .ok (.rdu64 0 33) := by decide
theorem test_decode_rds64 : decode ⟨0b00000000_0000_0011_00_111111_00001011, 0, 0⟩ = .ok (.rds64 3 64) := by decide
theorem test_decode_rdbit : decode ⟨0b00000000_0000_0001_00_000000_00001100, 0, 0⟩ = .ok (.rdbit 1) := by decide
theorem test_decode_rdle16 : decode ⟨0b00000000_0000_0100_00_000000_00010000, 0, 0⟩ = .ok (.rdle16 4) := by decide
theorem test_decode_rdle32 : decode ⟨0b00000000_0000_0001_00_000000_00010001, 0, 0⟩ = .ok (.rdle32 1) := by decide
theorem test_decode_rdle64 : decode ⟨0b00000000_0000_1000_00_000000_00010010, 0, 0⟩ = .ok (.rdle64 8) := by decide
theorem test_decode_pos : decode ⟨0b00000000_0000_0011_00_000000_00011000, 0, 0⟩ = .ok (.pos 3) := by decide
theorem test_decode_rembits : decode ⟨0b00000000_0000_0010_00_000000_00011001, 0, 0⟩ = .ok (.rembits 2) := by decide
theorem test_decode_rembytes : decode ⟨0b00000000_0000_0001_00_000000_00011010, 0, 0⟩ = .ok (.rembytes 1) := by decide
theorem test_decode_check : decode ⟨0b00000000_0000_0010_00_000000_00011011, 0, 0⟩ = .ok (.check 2) := by decide

/-- V-ERR-1, V-ERR-2, and the ends of the other unassigned ranges of R66. -/
theorem test_decode_unassigned :
    ([0x00, 0x05, 0x07, 0x0D, 0x0F, 0x13, 0x17, 0x1C, 0xFF] : List CmdWord).all
      (fun w => decode ⟨w, 0, 0⟩ == .error .unknownOpcode) = true := by decide

/-- V-ERR-3 to V-ERR-8 and V-ERR-12: one word for each must-be-zero field. -/
theorem test_decode_reserved_bits :
    ([0x00002008, 0x01001F08, 0x00005F08, 0x00100018, 0x00000118, 0x00010103, 0x01000001] : List CmdWord).all
      (fun w => decode ⟨w, 0, 0⟩ == .error .mustBeZero) = true := by decide

/-- A table word carries the operands above its 32 bits; a 32-bit row leaves them zero. -/
theorem test_decodeTableWord :
    decodeTableWord 160 0x000000000000000A_0000000000002000_00000001 = some (.init 0 0x2000 10) ∧
      decodeTableWord 32 0x000000000000000A_0000000000002000_00000001 = some (.init 0 0 0) ∧
      decodeTableWord 32 0x00002008 = none := by decide

/-! ## The assembler (30_encoding R68, R69) -/

theorem test_assemble_init : Asm.assemble "INIT c0, 0x3000, 6 ; P1".toList = some (.init 0 0x3000 6) := by decide
theorem test_assemble_case : Asm.assemble "  rdu64 c0, 33".toList = some (.rdu64 0 33) := by decide
theorem test_assemble_peek : Asm.assemble "PEEK c1, c0".toList = some (.peek 1 0) := by decide
theorem test_assemble_full_width : Asm.assemble "RDS64 c3".toList = some (.rds64 3 64) := by decide
theorem test_assemble_pseudo : Asm.assemble "RDU16 c2".toList = some (.rdu32 2 16) := by decide
theorem test_assemble_rejects_width : Asm.assemble "RDU32 c0, 33".toList = none := by decide

/-! ## One command each (95_test_vectors) -/

/-- V-INIT-2. -/
theorem test_init_owned : after (exec (.init 2 0x1000 3) (demo 0 0)) =
    some ([⟨.ok, 0, 0⟩], [b10 0, f3 0, f3 0, Context.afterReset], 3) := by decide
/-- V-INIT-6: base bits above `ADDR_W` are ignored. -/
theorem test_init_aliased : after (exec (.init 0 0x100002000 10) (demo 39 0)) = queryAfter 0 0 0 := by decide
/-- V-U32-9: the clamp. -/
theorem test_rdu32_clamp : after (exec (.rdu32 0 10) (demo 70 0)) = b10After 0x278 80 8 := by decide
/-- V-U32-13: past the end, at a saturated position. -/
theorem test_rdu32_saturated :
    after (exec (.rdu32 0 32) (demo 0xFFFFFFFFFFFFFFFF 0)) = b10After 0 0xFFFFFFFFFFFFFFFF 8 := by decide
/-- V-S32-1. -/
theorem test_rds32_negative : after (exec (.rds32 0 4) (demo 12 0)) = b10After 0xFFFFFFFFFFFFFFFC 16 8 := by decide
/-- V-S32-9: an owned context, across the logical end. -/
theorem test_rds32_owned : after (exec (.rds32 1 16) (demo 0 16)) = f3After 0xFFFFFFFFFFFFFF00 32 := by decide
/-- V-U64-5: two windows, across the logical end. -/
theorem test_rdu64_two_windows : after (exec (.rdu64 0 64) (demo 20 0)) = b10After 0x00F817E123456780 84 16 := by decide
/-- V-U64-6: one window. -/
theorem test_rdu64_one_window : after (exec (.rdu64 0 32) (demo 0 0)) = b10After 0xA53CF00F 32 8 := by decide
/-- V-S64-1. -/
theorem test_rds64_negative : after (exec (.rds64 0 33) (demo 0 0)) = b10After 0xFFFFFFFF4A79E01F 33 16 := by decide
/-- V-S64-4. -/
theorem test_rds64_positive : after (exec (.rds64 0 36) (demo 4 0)) = b10After 0x53CF00F81 40 16 := by decide
/-- V-BIT-1. -/
theorem test_rdbit_one : after (exec (.rdbit 0) (demo 0 0)) = b10After 1 1 8 := by decide
/-- V-BIT-4. -/
theorem test_rdbit_past_end : after (exec (.rdbit 0) (demo 80 0)) = b10After 0 81 8 := by decide
/-- V-LE-2. -/
theorem test_rdle16 : after (exec (.rdle16 0) (demo 4 0)) = b10After 0xCF53 20 8 := by decide
/-- V-LE-5. -/
theorem test_rdle32 : after (exec (.rdle32 0) (demo 12 0)) = b10After 0x17F800CF 44 8 := by decide
/-- V-LE-7. -/
theorem test_rdle64 : after (exec (.rdle64 0) (demo 24 0)) = b10After 0x00785634127E810F 88 16 := by decide
/-- V-SKIP-1. -/
theorem test_skip : after (exec (.skip 0 6) (demo 33 0)) = b10After 0 39 0 := by decide
/-- V-SKIP-5: saturation. -/
theorem test_skip_saturates :
    after (exec (.skip 0 0xFFFFFFFFFFFFFFFF) (demo 100 0)) = b10After 0 0xFFFFFFFFFFFFFFFF 0 := by decide
/-- V-SKIP-2's `POS`. -/
theorem test_pos : after (exec (.pos 0) (demo 39 0)) = queryAfter 39 0 39 := by decide
/-- V-REMBITS-2. -/
theorem test_rembits : after (exec (.rembits 0) (demo 39 0)) = queryAfter 41 0 39 := by decide
/-- V-REMBITS-7. -/
theorem test_rembits_past_end : after (exec (.rembits 0) (demo 81 0)) = queryAfter 0 0 81 := by decide
/-- V-RB-2. -/
theorem test_rembytes : after (exec (.rembytes 0) (demo 39 0)) = queryAfter 4 6 39 := by decide
/-- V-RB-8: an owned view holds its padding. -/
theorem test_rembytes_owned : (after (exec (.rembytes 1) (demo 0 23))).map (·.1) = some [⟨.ok, 2, 6⟩] := by decide
/-- V-CHK-2. -/
theorem test_check_at_end : after (exec (.check 0) (demo 80 0)) = queryAfter 0 0 80 := by decide
/-- V-CHK-3. -/
theorem test_check_past_end : after (exec (.check 0) (demo 81 0)) = queryAfter 1 0 81 := by decide
/-- V-PEEK-1. -/
theorem test_peek : after (exec (.peek 3 0) (demo 39 0)) =
    some ([⟨.ok, 0, 0⟩], [b10 39, f3 0, Context.afterReset, b10 39], 0) := by decide
/-- V-PEEK-4: an invalid source. -/
theorem test_peek_invalid_source : after (exec (.peek 1 3) (demo 39 0)) =
    some ([⟨.noctx, 0, 0⟩], [b10 39, f3 0, Context.afterReset, Context.afterReset], 0) := by decide
/-- V-RST-1. -/
theorem test_reset : after (exec (.reset 0) (demo 84 0)) = queryAfter 0 0 0 := by decide
/-- V-ERR-11. -/
theorem test_range : after (exec (.init 1 0x4000 65536) (demo 0 0)) =
    some ([⟨.range, 0, 0⟩], [b10 0, f3 0, Context.afterReset, Context.afterReset], 0) := by decide
/-- V-ERR-13: `NOCTX` before `RANGE`. -/
theorem test_noctx_before_range : (after (exec (.init 5 0x4000 65536) (demo 0 0))).map (·.1) =
    some [⟨.noctx, 0, 0⟩] := by decide
/-- V-ERR-12: `ILLEGAL` before `RANGE`, through a step. -/
theorem test_illegal_before_range : (after (step (demoWith 0 (.command ⟨0x01000001, 0x4000, 65536⟩)))).map (·.1) =
    some [⟨.illegal, 0, 0⟩] := by decide
/-- V-ERR-14: a read right after reset. -/
theorem test_reset_holds_no_cursor : (after (step (State.reset.withFetchWord 32 0x00000018))).map (·.1) =
    some [⟨.noctx, 0, 0⟩] := by decide
/-- The codes of R160. -/
theorem test_status_codes : [Status.ok, .illegal, .noctx, .range].map Status.code = [0, 1, 2, 3] := by decide
/-- V-INIT-10 and V-INIT-12 are about an owned snapshot: the host's write does not reach it (R82). -/
theorem test_owned_snapshot :
    (after (exec (.rdu32 1 8) { demo 0 0 with mem := Memory.write cells 0x1000 0xEE })).map (·.1) =
      some [⟨.ok, 0xFF, 0⟩] := by decide

/-! ## Facts of the demo states, for the witnesses below -/

/-- The demo states meet the invariant, at every pair of positions. -/
theorem demo_inv (p q : Word) : (demo p q).Inv where
  params := rfl
  fits c hc := by
    simp only [demo, List.mem_cons, List.not_mem_nil, or_false] at hc
    rcases hc with rfl | rfl | rfl | rfl <;> exact ⟨Nat.le_of_ble_eq_true rfl, Nat.le_of_ble_eq_true rfl, Nat.le_of_ble_eq_true rfl⟩
  cursors c hc hv := by
    simp only [demo, List.mem_cons, List.not_mem_nil, or_false] at hc
    rcases hc with rfl | rfl | rfl | rfl
    · exact ⟨by rfl, fun j _ _ => Pad.get_zero j⟩
    · refine ⟨by rfl, fun j hj ho => ?_⟩
      have : 3 ≤ j := ho.resolve_left fun h => h (by rfl)
      obtain rfl | rfl | rfl | rfl | rfl : j = 3 ∨ j = 4 ∨ j = 5 ∨ j = 6 ∨ j = 7 := by omega
      all_goals rfl
    · cases hv
    · cases hv
  noCursorInReset h := by cases h
  memWf := rfl
  memBelow := rfl
  pendingBelow := rfl

theorem demo_holds_b10 (p q : Word) : (demo p q).Holds 0 (b10 p) := ⟨rfl, rfl⟩
theorem demo_holds_f3 (p q : Word) : (demo p q).Holds 1 (f3 q) := ⟨rfl, rfl⟩
theorem demo_holds_none (p q : Word) : (demo p q).HoldsNone 2 := .inr ⟨_, rfl, rfl⟩

theorem demo_undisturbed_b10 (p q : Word) : (demo p q).Undisturbed (b10 p) := fun _ _ _ => rfl
theorem demo_undisturbed_f3 (p q : Word) : (demo p q).Undisturbed (f3 q) := fun _ _ _ => rfl

/-- Every command answers a next state there, with one response. -/
theorem demo_next (i : Instr) (p q : Word) : ∃ t, exec i (demo p q) = .next t :=
  (exec_cases i (demo p q)).imp fun _ h => h.1

/-- A demo state in which the host has written over B10's second byte and the write waits to become visible. -/
def writing : State := { demo 0 0 with pending := [(0x2001, 0xEE)], inbox := [.writesVisible] }

theorem writing_inv : writing.Inv :=
  let h := demo_inv 0 0
  ⟨h.params, h.fits, h.cursors, h.noCursorInReset, h.memWf, h.memBelow, by decide⟩

/-! ## Witnesses: concrete values that meet all hypotheses of a statement together -/

theorem witness_DecodeInvertsEncode : (Instr.rdu32 15 1).wf = true ∧ (Instr.rds32 0 32).wf = true ∧
    (Instr.rdu64 0 1).wf = true ∧ (Instr.rds64 15 64).wf = true ∧ (Instr.peek 15 15).wf = true := by decide

theorem witness_EncodeInvertsDecode : decode ⟨0x000F0001, 0x1000, 3⟩ = .ok (.init 15 0x1000 3) ∧
    decode ⟨0x00000004, 6, 1⟩ = .ok (.skip 0 6) ∧ decode ⟨0x00003F0A, 1, 1⟩ = .ok (.rdu64 0 64) := by decide

theorem witness_OperandsIgnoredOutsideInitAndSkip :
    (⟨0x00000018, 1, 2⟩ : Transaction).cmd = (⟨0x00000018, 3, 4⟩ : Transaction).cmd ∧
      opcField 0x00000018 ≠ 0x01 ∧ opcField 0x00000018 ≠ 0x04 := by decide

/-- Each row is selected by some word: the sixteen match words. -/
theorem witness_OpcodeRowsDoNotOverlap : rows.length = 16 ∧ rows.all (fun r => r.selects r.matchWord) = true := by decide

theorem witness_AssemblerRejectsIllegalWidths : Asm.assemble "RDU64 c15, 64".toList = some (.rdu64 15 64) := by decide

theorem witness_StepRunsDecodedCommand :
    (demoWith 0 (.command ⟨0x00001F08, 0, 0⟩)).inbox = .command ⟨0x00001F08, 0, 0⟩ :: [] ∧
      (demoWith 0 (.command ⟨0x00001F08, 0, 0⟩)).rst = false ∧ decode ⟨0x00001F08, 0, 0⟩ = .ok (.rdu32 0 32) := by decide

theorem witness_IllegalWordOnlyResponds :
    (demoWith 0 (.command ⟨0x00002008, 0, 0⟩)).inbox = .command ⟨0x00002008, 0, 0⟩ :: [] ∧
      (demoWith 0 (.command ⟨0x00002008, 0, 0⟩)).rst = false ∧ decode ⟨0x00002008, 0, 0⟩ = .error .mustBeZero := by decide

theorem witness_StepAlwaysNext : State.reset.inbox = [] := by decide

theorem witness_OneResponsePerCommand :
    (demoWith 0 (.command ⟨0x00000000, 0, 0⟩)).inbox = .command ⟨0x00000000, 0, 0⟩ :: [] ∧
      (demoWith 0 (.command ⟨0x00000000, 0, 0⟩)).rst = false := by decide

theorem witness_CommandsNeverWriteMemory :
    (demoWith 0 (.command ⟨0x00003F0A, 0, 0⟩)).inbox = .command ⟨0x00003F0A, 0, 0⟩ :: [] ∧
      ∃ u, step (demoWith 0 (.command ⟨0x00003F0A, 0, 0⟩)) = .next u := ⟨rfl, _, rfl⟩

theorem witness_RstInvalidatesEveryContext : (demoWith 0 .rstAssert).inbox = .rstAssert :: [] := by decide

/-- Clause by clause: a command offered while `RST` is asserted, and its deassertion. -/
theorem witness_NoCommandAcceptedInReset :
    ({ demoWith 0 (.command ⟨0x00000018, 0, 0⟩) with rst := true } : State).inbox = .command ⟨0x00000018, 0, 0⟩ :: [] ∧
      ({ demoWith 0 (.command ⟨0x00000018, 0, 0⟩) with rst := true } : State).rst = true ∧
      (demoWith 0 .rstDeassert).inbox = .rstDeassert :: [] := by decide

theorem witness_RstCutsCommandOff :
    (demoWith 0 (.cutCommand ⟨0x00003F0A, 0, 0⟩ 9)).inbox = .cutCommand ⟨0x00003F0A, 0, 0⟩ 9 :: [] ∧
      (demoWith 0 (.cutCommand ⟨0x00003F0A, 0, 0⟩ 9)).rst = false ∧
      ∃ v, step (demoWith 0 (.command ⟨0x00003F0A, 0, 0⟩)) = .next v := ⟨rfl, rfl, _, rfl⟩

/-- Clause by clause: a write issued; one made visible, with an address it is at and one it is not at. -/
theorem witness_HostWritesBecomeVisible :
    (demoWith 0 (.hostWrite 0x2001 0xEE)).inbox = .hostWrite 0x2001 0xEE :: [] ∧
      writing.Inv ∧ writing.inbox = .writesVisible :: [] ∧
      writing.pending = [] ++ (writing.addr 0x2001, 0xEE) :: [] ∧ (∀ w ∈ writing.pending, w.1 ≠ writing.addr 0x2000) :=
  ⟨rfl, writing_inv, rfl, rfl, by decide⟩

theorem witness_BreachMarksWrittenBytes :
    writing.Inv ∧ writing.Holds 0 (b10 0) ∧ (b10 0).own = false ∧ writing.inbox = .writesVisible :: [] :=
  ⟨writing_inv, ⟨rfl, rfl⟩, rfl, rfl⟩

/-- At both ends of the window: its first byte and its last. -/
theorem witness_DisturbedByteIsFreeDraw :
    (b10 0).own = false ∧
      ({ writing with pending := [(0x2000, 0xEE)] } : State).disturbed (b10 0).stale ((b10 0).base + (0 + 0)) = true ∧
      ({ writing with pending := [(0x2009, 0xEE)] } : State).disturbed (b10 0).stale ((b10 0).base + (2 + 7)) = true := by
  decide

/-- The smallest parameters, the largest, and the ones of `State.reset`. -/
theorem witness_ResetMeetsInvariant : (⟨1, ⟨4, 1⟩⟩ : Config.Params).legal = true ∧
    (⟨16, ⟨60, 64⟩⟩ : Config.Params).legal = true ∧ Config.defaultParams.legal = true := by decide

theorem witness_StepKeepsInvariant : writing.Inv ∧ ∃ t, step writing = .next t := ⟨writing_inv, _, rfl⟩

theorem witness_ValidContextInvariants : (demo 0 0).Inv ∧ (demo 0 0).Holds 0 (b10 0) ∧ (demo 0 0).Holds 1 (f3 0) :=
  ⟨demo_inv 0 0, demo_holds_b10 0 0, demo_holds_f3 0 0⟩

/-- Both ways `NOCTX` arises, at the boundary `CTX = N_CTX` and on a context without a cursor, and the response. -/
theorem witness_NoctxExactlyWithoutCursor :
    (Instr.pos 4).wf = true ∧ noCursorFor (.pos 4) (demo 0 0) ∧ noCursorFor (.peek 0 2) (demo 0 0) ∧
      ∃ t r, exec (.pos 4) (demo 0 0) = .next t ∧ t.responses = (demo 0 0).responses ++ [r] ∧ r.status = .noctx :=
  ⟨rfl, .inl (by decide), .inr (demo_holds_none 0 0), _, _, rfl, rfl, rfl⟩

/-- The smallest length out of range, and the response. -/
theorem witness_RangeExactlyOversizeInit :
    (3 : CtxId).val < (demo 0 0).nCtx ∧ 2 ^ (demo 0 0).cfg.lenW ≤ (65536 : Word).toNat ∧
      ∃ t r, exec (.init 3 0 65536) (demo 0 0) = .next t ∧ t.responses = (demo 0 0).responses ++ [r] ∧
        r.status = .range := ⟨by decide, by decide, _, _, rfl, rfl, rfl⟩

theorem witness_ErrorsChangeNothing :
    (demoWith 0 (.command ⟨0x0002001B, 0, 0⟩)).inbox = .command ⟨0x0002001B, 0, 0⟩ :: [] ∧
      ∃ u r, step (demoWith 0 (.command ⟨0x0002001B, 0, 0⟩)) = .next u ∧
        u.responses = (demoWith 0 (.command ⟨0x0002001B, 0, 0⟩)).responses ++ [r] ∧ r.status ≠ .ok :=
  ⟨rfl, _, _, rfl, rfl, by decide⟩

/-- A transaction for each clause: V-ERR-12, V-ERR-13, the smallest length out of range, and the largest in range. -/
theorem witness_StatusByPriority : (demoWith 0 (.command ⟨0x00030001, 0, 65535⟩)).rst = false ∧
    decode ⟨0x01000001, 0x4000, 65536⟩ = .error .mustBeZero ∧
    (decode ⟨0x00050001, 0x4000, 65536⟩ = .ok (.init 5 0x4000 65536) ∧ noCursorFor (.init 5 0x4000 65536) (demo 0 0)) ∧
    (decode ⟨0x00030001, 0, 65536⟩ = .ok (.init 3 0 65536) ∧ ¬ noCursorFor (.init 3 0 65536) (demo 0 0) ∧
      outOfRange (.init 3 0 65536) (demo 0 0)) ∧
    (decode ⟨0x00030001, 0, 65535⟩ = .ok (.init 3 0 65535) ∧ ¬ noCursorFor (.init 3 0 65535) (demo 0 0) ∧
      ¬ outOfRange (.init 3 0 65535) (demo 0 0)) :=
  ⟨rfl, by decide, ⟨by decide, show _ ≤ _ by decide⟩, ⟨by decide, show ¬ _ ≤ _ by decide, show _ ≤ _ by decide⟩,
    by decide, show ¬ _ ≤ _ by decide, show ¬ _ ≤ _ by decide⟩

/-- Both ends of the width range, the sign bit set. -/
theorem witness_ExtendIsSignExtension : (1 : Word).toNat < 2 ^ 1 ∧ (0x14A79E01F : Word).toNat < 2 ^ 33 ∧
    (0xFFFFFFFFFFFFFFFF : Word).toNat < 2 ^ 64 := by decide

theorem witness_ByteSwapReverses : 1 < 2 ∧ 3 < 4 ∧ 7 < 8 := by decide

theorem witness_AdvanceSaturates : (demo 0xFFFFFFFFFFFFFFFF 0).Inv ∧
    (demo 0xFFFFFFFFFFFFFFFF 0).ctx? 0 = some (b10 0xFFFFFFFFFFFFFFFF) ∧
    (b10 0xFFFFFFFFFFFFFFFF).pos.toNat = 2 ^ 64 - 1 := ⟨demo_inv _ _, rfl, by decide⟩

/-- Clause by clause: past the logical end, at the saturated position; 64-bit reads of a buffer with a disturbed byte; an
owned context. -/
theorem witness_WindowReadsInBounds : (demo 0xFFFFFFFFFFFFFFFF 0).Inv ∧
    (demo 0xFFFFFFFFFFFFFFFF 0).Holds 0 (b10 0xFFFFFFFFFFFFFFFF) ∧
    ((Instr.rdu64 0 33).wf = true ∧ isRead (.rdu64 0 33) = true ∧ writing.Holds (target (.rdu64 0 33)) (b10 0) ∧
      writing.disturbed (b10 0).stale 0x2001 = true) ∧
    (writing.Inv ∧ writing.Holds (target (.rdle64 0)) (b10 0) ∧ (∀ k base len, Instr.rdle64 0 ≠ .init k base len) ∧
      ∃ t, exec (.rdle64 0) writing = .next t) ∧
    ((demo 0 0).Holds (target (.rds64 1 64)) (f3 0) ∧ (f3 0).own = true ∧
      ∃ t, exec (.rds64 1 64) (demo 0 0) = .next t) :=
  ⟨demo_inv _ _, demo_holds_b10 _ _, ⟨rfl, rfl, ⟨rfl, rfl⟩, by decide⟩,
    ⟨writing_inv, ⟨rfl, rfl⟩, nofun, (exec_cases _ _).imp fun _ h => h.1⟩, ⟨rfl, rfl⟩, rfl, demo_next _ _ _⟩

/-- V-U64-2's windows, (0, 0) and (2, 16): the addresses read, ascending in each. -/
theorem test_rdu64_addresses : readsOf (demo 0 0) (b10 0) 64 =
    [0x2000, 0x2001, 0x2002, 0x2003, 0x2004, 0x2005, 0x2006, 0x2007,
      0x2002, 0x2003, 0x2004, 0x2005, 0x2006, 0x2007, 0x2008, 0x2009] := by decide

/-- An error and a read of 33 bits, the narrowest with two windows. -/
theorem witness_ReadCountsExact :
    (∃ t r, exec (.pos 2) (demo 0 0) = .next t ∧ t.responses = (demo 0 0).responses ++ [r] ∧ r.status ≠ .ok) ∧
      ∃ t r, exec (.rdu64 0 33) (demo 0 0) = .next t ∧ t.responses = (demo 0 0).responses ++ [r] ∧ r.status = .ok ∧
        (demo 0 0).ctx? (target (.rdu64 0 33)) = some (b10 0) :=
  ⟨⟨_, _, rfl, rfl, by decide⟩, _, _, rfl, rfl, rfl, rfl⟩

/-- The shortest aliased length and the longest. -/
theorem witness_InitAliases : (3 : CtxId).val < (demo 0 0).nCtx ∧ 8 ≤ (8 : Word).toNat ∧
    (8 : Word).toNat < 2 ^ (demo 0 0).cfg.lenW ∧ (65535 : Word).toNat < 2 ^ (demo 0 0).cfg.lenW := by decide

/-- The longest owned length and the zero length; bytes on both sides of the copy's end. -/
theorem witness_InitCopies : (3 : CtxId).val < (demo 0 0).nCtx ∧ (7 : Word).toNat < 8 ∧
    (7 : Word).toNat < 2 ^ (demo 0 0).cfg.lenW ∧ (0 : Word).toNat < 8 ∧ 6 < (7 : Word).toNat ∧
    (7 : Word).toNat ≤ 7 := by decide

theorem witness_InitBufferContents : (0 : CtxId).val < (demo 0 0).nCtx ∧
    (3 : Word).toNat < 2 ^ (demo 0 0).cfg.lenW ∧ (demo 0 0).pending = [] ∧
    ∃ t, exec (.init 0 0x1000 3) (demo 0 0) = .next t := ⟨by decide, by decide, rfl, demo_next _ _ _⟩

/-- Two states that share the owned cursor and differ in the memory it was copied from. -/
theorem witness_OwnedReadsIgnoreMemory : (f3 0).own = true ∧ (demo 0 0).Holds (target (.rdu64 1 64)) (f3 0) ∧
    ({ demo 0 0 with mem := [] } : State).Holds (target (.rdu64 1 64)) (f3 0) ∧
    (∀ k base len, Instr.rdu64 1 64 ≠ .init k base len) ∧ (∀ d q, Instr.rdu64 1 64 ≠ .peek d q) :=
  ⟨rfl, ⟨rfl, rfl⟩, ⟨rfl, rfl⟩, nofun, nofun⟩

theorem witness_PositionAdvancesByWidth : (Instr.rds32 0 32).wf = true ∧
    (demo 79 0).Holds (target (.rds32 0 32)) (b10 79) ∧ (∀ k base len, Instr.rds32 0 32 ≠ .init k base len) ∧
    (∀ d q, Instr.rds32 0 32 ≠ .peek d q) ∧ (∀ k, Instr.rds32 0 32 ≠ .reset k) :=
  ⟨rfl, ⟨rfl, rfl⟩, nofun, nofun, nofun⟩

/-- Aliased and owned, at the last bit of each buffer. -/
theorem witness_Rdu32ReadsLogicalBits : (demo 79 23).Inv ∧ (demo 79 23).Holds 0 (b10 79) ∧
    (demo 79 23).Undisturbed (b10 79) ∧ (demo 79 23).Holds 1 (f3 23) ∧ (demo 79 23).Undisturbed (f3 23) ∧
    (1 ≤ 1 ∧ 1 ≤ 32) ∧ 1 ≤ 32 ∧ 32 ≤ 32 :=
  ⟨demo_inv _ _, demo_holds_b10 _ _, demo_undisturbed_b10 _ _, demo_holds_f3 _ _, demo_undisturbed_f3 _ _, by decide⟩

theorem witness_Rds32ReadsSignedBits : (demo 0 16).Inv ∧ (demo 0 16).Holds 1 (f3 16) ∧
    (demo 0 16).Undisturbed (f3 16) ∧ 1 ≤ 16 ∧ 16 ≤ 32 :=
  ⟨demo_inv _ _, demo_holds_f3 _ _, demo_undisturbed_f3 _ _, by decide⟩

theorem witness_Rdu64ReadsLogicalBits : (demo 0xFFFFFFFFFFFFFFF5 0).Inv ∧
    (demo 0xFFFFFFFFFFFFFFF5 0).Holds 0 (b10 0xFFFFFFFFFFFFFFF5) ∧
    (demo 0xFFFFFFFFFFFFFFF5 0).Undisturbed (b10 0xFFFFFFFFFFFFFFF5) ∧ 1 ≤ 64 ∧ 64 ≤ 64 :=
  ⟨demo_inv _ _, demo_holds_b10 _ _, demo_undisturbed_b10 _ _, by decide⟩

theorem witness_Rds64ReadsSignedBits : (demo 0 0).Inv ∧ (demo 0 0).Holds 0 (b10 0) ∧
    (demo 0 0).Undisturbed (b10 0) ∧ 1 ≤ 33 ∧ 33 ≤ 64 :=
  ⟨demo_inv _ _, demo_holds_b10 _ _, demo_undisturbed_b10 _ _, by decide⟩

theorem witness_RdbitReadsOneBit : (demo 79 0).Inv ∧ (demo 79 0).Holds 0 (b10 79) ∧ (demo 79 0).Undisturbed (b10 79) :=
  ⟨demo_inv _ _, demo_holds_b10 _ _, demo_undisturbed_b10 _ _⟩

theorem witness_ExtractDatapath : (demo 31 0).Holds 0 (b10 31) ∧ 1 ≤ 32 ∧ 32 ≤ 32 := ⟨demo_holds_b10 _ _, by decide⟩

theorem witness_Rds32EqualsRds64 : (demo 12 0).Holds 0 (b10 12) ∧ (1 ≤ 1 ∧ 1 ≤ 32) ∧ 1 ≤ 32 ∧ 32 ≤ 32 :=
  ⟨demo_holds_b10 _ _, by decide⟩

theorem witness_NarrowReadsAgree : 1 ≤ 1 ∧ 1 ≤ 32 ∧ 1 ≤ 32 ∧ 32 ≤ 32 := by decide

theorem witness_LittleEndianReadsSwapBits : (demo 4 0).Inv ∧ (demo 4 0).Holds 0 (b10 4) ∧
    (demo 4 0).Undisturbed (b10 4) := ⟨demo_inv _ _, demo_holds_b10 _ _, demo_undisturbed_b10 _ _⟩

theorem witness_LittleEndianIsSwapOfBigEndian : (demo 4 0).Holds 0 (b10 4) := demo_holds_b10 _ _

/-- The last aligned position at which the widest read still lies inside the buffer, which holds for all three reads. -/
theorem witness_LittleEndianReadsAlignedInteger : (demo 16 0).Inv ∧ (demo 16 0).Holds 0 (b10 16) ∧
    (demo 16 0).Undisturbed (b10 16) ∧ (b10 16).pos.toNat % 8 = 0 ∧ (b10 16).pos.toNat + 16 ≤ (b10 16).lbits ∧
    (b10 16).pos.toNat + 32 ≤ (b10 16).lbits ∧ (b10 16).pos.toNat + 64 ≤ (b10 16).lbits :=
  ⟨demo_inv _ _, demo_holds_b10 _ _, demo_undisturbed_b10 _ _, by decide⟩

theorem witness_SkipAdvances : (demo 100 0).Holds 0 (b10 100) := demo_holds_b10 _ _

theorem witness_QueriesAnswerAndChangeNothing : (demo 81 0).Inv ∧ (demo 81 0).Holds 0 (b10 81) :=
  ⟨demo_inv _ _, demo_holds_b10 _ _⟩

/-- Clause by clause, where they meet: the start at `LSIZE`, and one byte before it. -/
theorem witness_RembytesAnswersTail : (demo 80 23).Inv ∧ (demo 80 23).Holds 0 (b10 80) ∧
    (b10 80).lsize ≤ (b10 80).pos.toNat / 8 ∧ (demo 80 23).Holds 1 (f3 23) ∧ (f3 23).pos.toNat / 8 < (f3 23).lsize :=
  ⟨demo_inv _ _, demo_holds_b10 _ _, by decide, demo_holds_f3 _ _, by decide⟩

theorem witness_PeekCopiesContext : (3 : CtxId).val < (demo 39 0).nCtx ∧ (demo 39 0).Holds 0 (b10 39) :=
  ⟨by decide, demo_holds_b10 _ _⟩

theorem witness_ResetRewinds : (demo 84 0).Holds 0 (b10 84) := demo_holds_b10 _ _

/-- Clause by clause: a read up to the logical end, and one across it. -/
theorem witness_RembitsDecrease : (demo 72 0).Holds (target (.rdu32 0 8)) (b10 72) ∧
    (∀ k base len, Instr.rdu32 0 8 ≠ .init k base len) ∧ (∀ d q, Instr.rdu32 0 8 ≠ .peek d q) ∧
    (∃ t, exec (.rdu32 0 8) (demo 72 0) = .next t ∧ t.Holds 0 (b10 80)) ∧
    (∃ t, exec (.rdu32 0 16) (demo 72 0) = .next t ∧ t.Holds 0 (b10 88)) ∧
    80 ≤ (b10 72).lbits ∧ (b10 72).lbits < 88 :=
  ⟨⟨rfl, rfl⟩, nofun, nofun, ⟨_, rfl, rfl, rfl⟩, ⟨_, rfl, rfl, rfl⟩, by decide⟩

theorem witness_OnlyTargetContextChanges : ∃ t, exec (.peek 3 0) (demo 0 0) = .next t := demo_next _ _ _

/-- Two states that share the cursor and its buffer and differ in the other contexts. -/
theorem witness_ResponsesDependOnOwnContext : (demo 4 0).Inv ∧ (demo 4 0).Holds (target (.rdle64 0)) (b10 4) ∧
    (demo 4 9).Holds (target (.rdle64 0)) (b10 4) ∧ (demo 4 0).Undisturbed (b10 4) ∧
    (demo 4 9).Undisturbed (b10 4) ∧
    (∀ j, j < (b10 4).lsize → (demo 4 0).bufferByte (b10 4) j = (demo 4 9).bufferByte (b10 4) j) ∧
    (∀ k base len, Instr.rdle64 0 ≠ .init k base len) ∧ (∀ d q, Instr.rdle64 0 ≠ .peek d q) :=
  ⟨demo_inv _ _, ⟨rfl, rfl⟩, ⟨rfl, rfl⟩, demo_undisturbed_b10 _ _, demo_undisturbed_b10 _ _, fun _ _ => rfl, nofun,
    nofun⟩

/-- A context that the command addresses, and one that it does not. -/
theorem witness_OnlyPositionChangesInLifetime : (demo 0 5).Holds 1 (f3 5) ∧ (demo 0 5).Holds 0 (b10 0) ∧
    (∀ base len, Instr.skip 1 3 ≠ .init 1 base len) ∧ (∀ q, Instr.skip 1 3 ≠ .peek 1 q) ∧ Instr.skip 1 3 ≠ .reset 1 ∧
    ∃ t, exec (.skip 1 3) (demo 0 5) = .next t :=
  ⟨demo_holds_f3 _ _, demo_holds_b10 _ _, nofun, nofun, nofun, demo_next _ _ _⟩

/-- Clause by clause: an overflowed context, and a read that consumes the first bit past the end. -/
theorem witness_OverflowSticksUntilRewound :
    ((demo 81 0).Holds 0 (b10 81) ∧ (b10 81).ovf = true ∧ (∀ base len, Instr.rdbit 0 ≠ .init 0 base len) ∧
      (∀ q, Instr.rdbit 0 ≠ .peek 0 q) ∧ Instr.rdbit 0 ≠ .reset 0 ∧ ∃ t, exec (.rdbit 0) (demo 81 0) = .next t) ∧
    ((Instr.rdbit 0).wf = true ∧ (demo 80 0).Inv ∧ (demo 80 0).Holds (target (.rdbit 0)) (b10 80) ∧
      (b10 80).lbits < (b10 80).pos.toNat + bitsConsumed (.rdbit 0) ∧
      (∀ k base len, Instr.rdbit 0 ≠ .init k base len) ∧ (∀ d q, Instr.rdbit 0 ≠ .peek d q) ∧
      (∀ k, Instr.rdbit 0 ≠ .reset k) ∧ ∃ t, exec (.rdbit 0) (demo 80 0) = .next t) :=
  ⟨⟨demo_holds_b10 _ _, by decide, nofun, nofun, nofun, demo_next _ _ _⟩,
    rfl, demo_inv _ _, ⟨rfl, rfl⟩, by decide, nofun, nofun, nofun, demo_next _ _ _⟩

/-- A sign bit that must reach the top of the bus. -/
theorem witness_ResponsesCarryTheirType : ∃ t data, exec (.rds32 0 4) (demo 12 0) = .next t ∧
    t.responses = (demo 12 0).responses ++ [⟨.ok, data, 0⟩] := ⟨_, _, rfl, rfl⟩

end Sys2Proof.Tests
end

section
/-! PROOFS. The barrel shifter as exact arithmetic (00_scope R9). -/

namespace Sys2Proof.Machine

theorem shl64_toNat (x : Word) (s : Nat) :
    (shl64 x s).toNat = if s < 64 then x.toNat * 2 ^ s % 2 ^ 64 else 0 := by
  unfold shl64
  split
  · rw [BitVec.toNat_shiftLeft, Nat.shiftLeft_eq]
  · rfl

theorem srl64_toNat (x : Word) (s : Nat) :
    (srl64 x s).toNat = if s < 64 then x.toNat / 2 ^ s else 0 := by
  unfold srl64
  split
  · rw [BitVec.toNat_ushiftRight, Nat.shiftRight_eq_div_pow]
  · rfl

/-- Below 64 the arithmetic shift is the floored quotient of the signed value: `Int` division by a positive power of two
rounds down. -/
theorem sra64_of_lt {s : Nat} (hs : s < 64) (x : Word) : sra64 x s = BitVec.ofInt 64 (x.toInt / 2 ^ s) := by
  rw [sra64, if_pos hs, BitVec.sshiftRight, Int.shiftRight_eq_div_pow, Nat.cast_pow, Nat.cast_ofNat]

/-- From 64 on only the sign, bit 63, is left. -/
theorem sra64_of_ge {s : Nat} (hs : 64 ≤ s) (x : Word) :
    sra64 x s = if x.getLsbD 63 = true then BitVec.ofNat 64 (2 ^ 64 - 1) else 0 := by
  rw [sra64, if_neg (Nat.not_lt.2 hs), BitVec.msb_eq_getLsbD_last]
  rfl

/-- Settles O28: each operator by its own law, `SRA64` on either side of 64. -/
theorem shiftOperators : Obligations.ShiftOperators := by
  intro x s
  refine ⟨shl64_toNat x s, srl64_toNat x s, ?_⟩
  split
  case isTrue hs => exact sra64_of_lt hs x
  case isFalse hs => exact sra64_of_ge (Nat.not_lt.1 hs) x

end Sys2Proof.Machine
end

section
/-! PROOFS. Every step keeps the invariant of the state (10_state R33), and what it says of a context. -/

namespace Sys2Proof.Machine

/-! ## What a step runs -/

theorem step_cons {s : State} {e : HostEvent} {rest : List HostEvent} (h : s.inbox = e :: rest) :
    step s = State.handle { s with inbox := rest } e := by
  rw [step, h]

theorem State.offer_of_rst {s : State} (hr : s.rst = true) (t : Transaction) : s.offer t = .next s :=
  if_pos hr

theorem State.offer_of_not_rst {s : State} (hr : s.rst = false) (t : Transaction) : s.offer t = s.accept t := by
  rw [State.offer, hr, if_neg Bool.false_ne_true]

theorem State.accept_of_decode {t : Transaction} {i : Instr} (h : decode t = .ok i) (s : State) :
    s.accept t = exec i s := by
  rw [State.accept, h]

theorem State.accept_of_decode_error {t : Transaction} {e : DecodeError} (h : decode t = .error e) (s : State) :
    s.accept t = .next (s.deliver ⟨.illegal, 0, 0⟩) := by
  rw [State.accept, h, State.raise_eq]

/-- A command cut off by `RST` leaves a hardware reset of the state before it, with some reads made and draws taken
(log 7). -/
theorem State.cutOff_eq_hardwareReset {s u : State} {t : Transaction} {k : Nat} (h : s.cutOff t k = .next u) :
    ∃ reads draws, u = State.hardwareReset { s with reads := reads, draws := draws } := by
  unfold State.cutOff at h
  split at h
  · cases h; exact ⟨_, _, rfl⟩
  · cases h
  · cases h

/-! ## The contexts that operations write -/

theorem State.addr_lt (s : State) (a : Nat) : s.addr a < 2 ^ s.cfg.addrW :=
  Nat.mod_lt _ (Nat.two_pow_pos _)

theorem State.initContext_limit (s : State) (a len : Nat) : (s.initContext a len).limit = max len 8 - 8 := by
  simp only [State.initContext, Config.padBytes]
  split <;> omega

/-- `INIT` writes fields that fit: its length is in range, its base is reduced to the address width (R80). -/
theorem State.initContext_fits {s : State} {len : Nat} (hl : len < 2 ^ s.cfg.lenW) (base : Word) :
    (s.initContext (s.baseOf base) len).fits s.cfg := by
  refine ⟨hl, ?_, s.addr_lt _⟩
  rw [State.initContext_limit]
  omega

/-- `INIT` writes a cursor: an owned `PAD` is 0 from the length on, an aliased one is 0 everywhere (R80). -/
theorem State.initContext_cursorOk (s : State) (a len : Nat) : (s.initContext a len).cursorOk := by
  refine ⟨s.initContext_limit a len, fun j hj hout => ?_⟩
  show (if Config.padBytes ≤ len then Pad.zero else Pad.ofFn (s.padByte a len)).get j = 0
  split
  case isTrue => exact Pad.get_zero j
  case isFalse hshort =>
    have hj' : len ≤ j := hout.resolve_left fun hown => hown (Context.own_iff.2 (Nat.not_le.1 hshort))
    rw [Pad.get_ofFn _ hj, State.padByte, if_neg (Nat.not_lt.2 hj')]

/-- A context that notes a host write changes in `stale` alone (log 9). -/
theorem Context.noteWrite_eq (addrW : Nat) (c : Context) (a : Nat) :
    ∃ st, c.noteWrite addrW a = { c with stale := st } := by
  unfold Context.noteWrite
  split
  · exact ⟨_, rfl⟩
  · exact ⟨c.stale, rfl⟩

theorem Context.foldl_noteWrite_eq (addrW : Nat) (ws : List Host.Cell) (c : Context) :
    ∃ st, ws.foldl (fun c w => c.noteWrite addrW w.1) c = { c with stale := st } := by
  induction ws generalizing c with
  | nil => exact ⟨c.stale, rfl⟩
  | cons w ws ih =>
    obtain ⟨st, hst⟩ := c.noteWrite_eq addrW w.1
    rw [List.foldl_cons, hst]
    exact ih _

/-- A context after an `RST` event fits: its free values are reduced to their widths (log 3). -/
theorem Context.unspecified_fits (w : Config.Widths) (k : Nat) : (Context.unspecified w k).fits w :=
  ⟨Nat.mod_lt _ (Nat.two_pow_pos _), Nat.mod_lt _ (Nat.two_pow_pos _), Nat.mod_lt _ (Nat.two_pow_pos _)⟩

/-! ## The invariant under commands -/

/-- Writing a held cursor back, under any index and at any position, keeps the invariant. -/
theorem State.Inv.setCursorAt {s : State} (h : s.Inv) {src : CtxId} {c : Context} (hc : s.Holds src c) (i : CtxId)
    (p : Word) : (s.setCtx i { c with pos := p }).Inv :=
  h.setCtx (h.rst_of_holds hc) i (show c.fits s.cfg from h.fits_of_ctx? hc.1) fun _ =>
    show c.cursorOk from h.cursorOk_of_holds hc

/-- Every command keeps the invariant, while `RST` is deasserted. -/
theorem State.Inv.exec {s t : State} {i : Instr} (h : s.Inv) (hr : s.rst = false) (he : exec i s = .next t) :
    t.Inv := by
  cases exec_effect he with
  | error e _ => exact h.deliver _
  | query c _ hc d a => exact h.deliver _
  | read c _ _ hc d => exact ((h.logReads _).setCursorAt hc _ _).deliver _
  | skip c count _ hc => exact (h.setCursorAt hc _ _).deliver _
  | rewind c _ hc => exact (h.setCursorAt hc _ _).deliver _
  | copy src c _ _ hc => exact (h.setCursorAt hc _ c.pos).deliver _
  | construct base len _ _ hl =>
    exact ((h.logReads _).setCtx hr _ (State.initContext_fits hl base) fun _ =>
      s.initContext_cursorOk _ _).deliver _

/-- An offered command keeps the invariant: in reset it is dropped, otherwise it is illegal or performed. -/
theorem State.Inv.offer {s u : State} {t : Transaction} (h : s.Inv) (ho : s.offer t = .next u) : u.Inv := by
  cases hr : s.rst with
  | true => rw [State.offer_of_rst hr] at ho; cases ho; exact h
  | false =>
    rw [State.offer_of_not_rst hr] at ho
    cases hd : decode t with
    | error e => rw [State.accept_of_decode_error hd] at ho; cases ho; exact h.deliver _
    | ok i => rw [State.accept_of_decode hd] at ho; exact h.exec hr ho

/-! ## The invariant under host writes and reset -/

theorem State.Inv.withRecords {s : State} (h : s.Inv) (reads : List Nat) (draws : Nat) :
    ({ s with reads := reads, draws := draws } : State).Inv :=
  ⟨h.params, h.fits, h.cursors, h.noCursorInReset, h.memWf, h.memBelow, h.pendingBelow⟩

theorem State.Inv.rstDeassert {s : State} (h : s.Inv) : ({ s with rst := false } : State).Inv :=
  ⟨h.params, h.fits, h.cursors, nofun, h.memWf, h.memBelow, h.pendingBelow⟩

theorem Memory.below_append {n : Nat} {m m' : List Host.Cell} :
    Memory.below n (m ++ m') = true ↔ Memory.below n m = true ∧ Memory.below n m' = true := by
  simp [Memory.below]

theorem State.Inv.hostWrite {s : State} (h : s.Inv) (a : Nat) (b : Byte) : (s.hostWrite a b).Inv where
  params := h.params
  fits := h.fits
  cursors := h.cursors
  noCursorInReset := h.noCursorInReset
  memWf := h.memWf
  memBelow := h.memBelow
  pendingBelow := by
    rw [State.hostWrite_pending, State.hostWrite_cfg, Memory.below_append]
    exact ⟨h.pendingBelow, Memory.below_cons.2 ⟨s.addr_lt a, rfl⟩⟩

/-- A context of the bank once the pending writes are visible is one of the bank before, but for `stale`. -/
theorem State.mem_makeVisible_bank {s : State} {c : Context} (hc : c ∈ s.makeVisible.bank) :
    ∃ d ∈ s.bank, ∃ st, c = { d with stale := st } := by
  obtain ⟨d, hd, rfl⟩ := List.mem_map.1 hc
  exact ⟨d, hd, Context.foldl_noteWrite_eq _ _ d⟩

theorem State.makeVisible_nCtx (s : State) : s.makeVisible.nCtx = s.nCtx := by
  simp [State.nCtx]

theorem State.Inv.makeVisible {s : State} (h : s.Inv) : s.makeVisible.Inv where
  params := by have hp := h.params; simpa [State.params, State.makeVisible_nCtx] using hp
  fits c hc := by obtain ⟨d, hd, _, rfl⟩ := State.mem_makeVisible_bank hc; exact h.fits d hd
  cursors c hc hv := by obtain ⟨d, hd, _, rfl⟩ := State.mem_makeVisible_bank hc; exact h.cursors d hd hv
  noCursorInReset hr c hc := by
    obtain ⟨d, hd, _, rfl⟩ := State.mem_makeVisible_bank hc
    exact h.noCursorInReset hr d hd
  memWf := (Memory.wf_writeAll h.memWf h.memBelow h.pendingBelow).1
  memBelow := (Memory.wf_writeAll h.memWf h.memBelow h.pendingBelow).2
  pendingBelow := rfl

theorem State.mem_hardwareReset_bank {s : State} {c : Context} (hc : c ∈ s.hardwareReset.bank) :
    ∃ k, c = Context.unspecified s.cfg k := by
  obtain ⟨i, _, rfl⟩ := List.mem_map.1 hc
  exact ⟨_, rfl⟩

theorem State.hardwareReset_nCtx (s : State) : s.hardwareReset.nCtx = s.nCtx := by
  simp [State.nCtx]

theorem State.Inv.hardwareReset {s : State} (h : s.Inv) : s.hardwareReset.Inv where
  params := by have hp := h.params; simpa [State.params, State.hardwareReset_nCtx] using hp
  fits c hc := by obtain ⟨k, rfl⟩ := State.mem_hardwareReset_bank hc; exact Context.unspecified_fits _ k
  cursors c hc hv := by obtain ⟨k, rfl⟩ := State.mem_hardwareReset_bank hc; cases hv
  noCursorInReset _ c hc := by obtain ⟨k, rfl⟩ := State.mem_hardwareReset_bank hc; rfl
  memWf := h.memWf
  memBelow := h.memBelow
  pendingBelow := h.pendingBelow

/-! ## The invariant under a step -/

theorem State.Inv.handle {s t : State} {e : HostEvent} (h : s.Inv) (he : s.handle e = .next t) : t.Inv := by
  cases e with
  | command tr => exact h.offer he
  | hostWrite a b => cases he; exact h.hostWrite a b
  | writesVisible => cases he; exact h.makeVisible
  | rstAssert => cases he; exact h.hardwareReset
  | rstDeassert => cases he; exact h.rstDeassert
  | cutCommand tr k =>
    obtain ⟨reads, draws, rfl⟩ := State.cutOff_eq_hardwareReset he
    exact (h.withRecords reads draws).hardwareReset

/-- Settles O22: an idle step changes nothing, and each of the host's events keeps the invariant. -/
theorem stepKeepsInvariant : Obligations.StepKeepsInvariant := by
  intro s t h hs
  cases hq : s.inbox with
  | nil => rw [step, hq] at hs; cases hs; exact h
  | cons e rest => rw [step_cons hq] at hs; exact (h.withInbox rest).handle hs

/-- Settles O9: out of reset the event at the head of the queue is accepted, decoded and performed. -/
theorem stepRunsDecodedCommand : Obligations.StepRunsDecodedCommand := by
  intro s t rest i hq hr hd
  rw [step_cons hq]
  exact (State.offer_of_not_rst (s := { s with inbox := rest }) hr t).trans (State.accept_of_decode hd _)

/-! ## What the invariant says of a context -/

theorem Context.cursorOk.plen_eq_max {c : Context} (h : c.cursorOk) : c.plen = max c.lsize 8 := by
  have hlim := h.1
  rw [Context.plen_eq]
  omega

/-- Settles O23: `PLEN` is `LIMIT + 8`, and `LIMIT` is that of a cursor. -/
theorem validContextInvariants : Obligations.ValidContextInvariants := by
  intro s i c h hc
  have hok := h.cursorOk_of_holds hc
  have hplen := hok.plen_eq_max
  exact ⟨by omega, le_rfl, by omega, hok.1, hplen⟩

/-- The logical size in bits stays below `2^63`: `LEN_W` is at most 60 (00_scope R5). -/
theorem State.Inv.lbits_lt {s : State} (h : s.Inv) {i : CtxId} {c : Context} (hc : s.ctx? i = some c) :
    c.lbits < 2 ^ 63 := by
  have hlegal := h.params
  simp only [Config.Params.legal, decide_eq_true_eq] at hlegal
  obtain ⟨_, _, _, hlenW, _⟩ := hlegal
  have hsize : c.lsize < 2 ^ s.cfg.lenW := (h.fits_of_ctx? hc).1
  have hpow : 2 ^ s.cfg.lenW ≤ 2 ^ 60 := Nat.pow_le_pow_right Nat.two_pos hlenW
  rw [Context.lbits]
  omega

/-- Settles O31: the adder by its law; a saturated position lies past every logical size that fits. -/
theorem advanceSaturates : Obligations.AdvanceSaturates := by
  refine ⟨toNat_adv, fun s i c h hc hsat => Context.ovf_iff.2 ?_⟩
  have hlt : c.lsize * 8 < 2 ^ 63 := h.lbits_lt hc
  omega

end Sys2Proof.Machine
end

section
/-! PROOFS. A cursor within its lifetime: what a command leaves of the contexts (10_state R24, R36). -/

namespace Sys2Proof.Machine

/-- A command writes its own context and no other (43_position R135). -/
theorem Effect.ctx?_other {i : Instr} {s t : State} (h : Effect i s t) {k : CtxId} (hk : k ≠ target i) :
    t.ctx? k = s.ctx? k := by
  cases h with
  | error | query => rfl
  | read | skip | rewind | copy | construct => exact State.setCtx_ctx?_other _ hk

/-- The addressed context after a write of the bank: what was written, valid as written. -/
theorem State.Holds.setCtx {s : State} {i : CtxId} {c c' : Context} (h : s.Holds i c) (hv : c'.valid = true) :
    (s.setCtx i c').Holds i c' :=
  ⟨State.setCtx_ctx?_self c' (State.lt_of_ctx? h.1), hv⟩

theorem State.Holds.unique {s : State} {i : CtxId} {c d : Context} (hc : s.Holds i c) (hd : s.Holds i d) : c = d :=
  Option.some.inj (hc.1.symm.trans hd.1)

/-- `c'` continues the lifetime of `c` under `i`: only the position changed, and only `RESET` lowered it
(10_state R24, R36). -/
def Context.Continues (i : Instr) (k : CtxId) (c c' : Context) : Prop :=
  c' = { c with pos := c'.pos } ∧ (i ≠ .reset k → c.pos.toNat ≤ c'.pos.toNat)

theorem Context.Continues.refl (i : Instr) (k : CtxId) (c : Context) : c.Continues i k c := ⟨rfl, fun _ => le_rfl⟩

theorem Context.Continues.advance (i : Instr) (k : CtxId) (c : Context) (n : Nat) :
    c.Continues i k (c.advance n) := ⟨rfl, fun _ => le_toNat_adv c.pos n⟩

/-- The cursor a command addresses goes on, unless `INIT` or `PEEK` starts another one in its context. -/
theorem Effect.target_continues {i : Instr} {s t : State} {c : Context} (h : Effect i s t)
    (hc : s.Holds (target i) c) (hinit : ∀ base len, i ≠ .init (target i) base len)
    (hpeek : ∀ q, i ≠ .peek (target i) q) : ∃ c', t.Holds (target i) c' ∧ c.Continues i (target i) c' := by
  cases h with
  | error | query => exact ⟨c, hc, .refl ..⟩
  | read d _ _ hd => cases hd.unique hc; exact ⟨_, State.Holds.setCtx (s := s.logReads _) hc hc.2, .advance ..⟩
  | skip d _ _ hd => cases hd.unique hc; exact ⟨_, hc.setCtx hc.2, .advance ..⟩
  | rewind d hi hd => cases hd.unique hc; exact ⟨_, hc.setCtx hc.2, rfl, fun hn => absurd hi hn⟩
  | copy src _ hi => exact absurd hi (hpeek src)
  | construct base len hi => exact absurd hi (hinit base len)

/-- Settles O58: a context the command does not address is the same, the one it addresses goes on. -/
theorem onlyPositionChangesInLifetime : Obligations.OnlyPositionChangesInLifetime := by
  intro i s t k c hc hinit hpeek he
  have heff := exec_effect he
  by_cases hk : k = target i
  case pos => subst hk; exact heff.target_continues hc hinit hpeek
  case neg => exact ⟨c, ⟨(heff.ctx?_other hk).trans hc.1, hc.2⟩, Context.Continues.refl i k c⟩

end Sys2Proof.Machine
end

section
/-! PROOFS. The widths and signs of the values a read can leave on the response bus, in every state (41_extraction R92
to R100), and the response of a command that completes with `OK`. -/

namespace Sys2Proof.Machine

/-! ## Sign extension -/

theorem xor_eq_add_of_and_eq_zero {n : Nat} {x y : BitVec n} (h : x &&& y = 0#n) : x ^^^ y = x + y := by
  rw [BitVec.add_eq_or_of_and_eq_zero x y h]
  ext i hi
  have hbit : (x[i] && y[i]) = false := by rw [← BitVec.getElem_and, h, BitVec.getElem_zero]
  rw [BitVec.getElem_xor, BitVec.getElem_or]
  revert hbit
  cases x[i] <;> cases y[i] <;> decide

/-- The mask of the extend transform: the bits from `k` on (41_extraction R97). -/
theorem getLsbD_signMask {k i : Nat} (hk : k < 64) (hi : i < 64) :
    (shl64 (BitVec.allOnes 64) k).getLsbD i = decide (k ≤ i) := by
  rw [shl64, if_pos hk, BitVec.getLsbD_shiftLeft, BitVec.getLsbD_allOnes, decide_eq_true hi,
    decide_eq_true (show i - k < 64 by omega), ← decide_not]
  simp

theorem signMask_eq_neg {k : Nat} (hk : k < 64) : shl64 (BitVec.allOnes 64) k = -BitVec.twoPow 64 k := by
  rw [shl64, if_pos hk, BitVec.shiftLeft_eq_mul_twoPow, ← BitVec.neg_one_eq_allOnes]
  exact neg_one_mul _

theorem getLsbD_eq_false_of_lt {n k i : Nat} {x : BitVec n} (hx : x.toNat < 2 ^ k) (hi : k ≤ i) :
    x.getLsbD i = false :=
  Nat.testBit_lt_two_pow (lt_of_lt_of_le hx (Nat.pow_le_pow_right Nat.two_pos hi))

/-- With the sign bit clear, the value and the mask share no bit: their XOR is their sum. -/
theorem extend_of_sign_clear {v : Word} {k : Nat} (hk : k < 64) (hv : v.toNat < 2 ^ (k + 1))
    (hs : v.getLsbD k = false) : extend v (k + 1) = v := by
  have hdisj : v &&& shl64 (BitVec.allOnes 64) k = 0#64 := by
    refine BitVec.eq_of_getLsbD_eq fun i hi => ?_
    rw [BitVec.getLsbD_and, getLsbD_signMask hk hi, BitVec.getLsbD_zero]
    rcases lt_trichotomy i k with h | rfl | h
    · rw [decide_eq_false (by omega), Bool.and_false]
    · rw [hs, Bool.false_and]
    · rw [getLsbD_eq_false_of_lt hv h, Bool.false_and]
  show (v ^^^ shl64 (BitVec.allOnes 64) k) - shl64 (BitVec.allOnes 64) k = v
  rw [xor_eq_add_of_and_eq_zero hdisj, BitVec.add_sub_cancel]

/-- With the sign bit set, the XOR clears it and sets every bit above; taking the mask away puts it back. -/
theorem getLsbD_extend_of_sign_set {v : Word} {k : Nat} (hk : k < 64) (hs : v.getLsbD k = true) {i : Nat}
    (hi : i < 64) : (extend v (k + 1)).getLsbD i = (decide (k < i) ^^ v.getLsbD i) := by
  have hdisj : (v ^^^ shl64 (BitVec.allOnes 64) k) &&& BitVec.twoPow 64 k = 0#64 := by
    refine BitVec.eq_of_getLsbD_eq fun j hj => ?_
    rw [BitVec.getLsbD_and, BitVec.getLsbD_xor, getLsbD_signMask hk hj, BitVec.getLsbD_twoPow, BitVec.getLsbD_zero]
    by_cases hjk : k = j
    · subst hjk; simp [hs]
    · simp [hjk]
  have hsum : extend v (k + 1) = (v ^^^ shl64 (BitVec.allOnes 64) k) ^^^ BitVec.twoPow 64 k := by
    rw [xor_eq_add_of_and_eq_zero hdisj, ← BitVec.sub_neg, ← signMask_eq_neg hk]
    rfl
  rw [hsum, BitVec.getLsbD_xor, BitVec.getLsbD_xor, getLsbD_signMask hk hi, BitVec.getLsbD_twoPow, decide_eq_true hk]
  rcases lt_trichotomy i k with h | rfl | h
  · simp [h.not_ge, h.not_gt, h.ne']
  · simp [hs]
  · simp [h, h.le, h.ne, Bool.xor_comm]

/-- The extend transform is sign extension (41_extraction R97). -/
theorem extend_eq_signExtend {v : Word} {w : Nat} (h1 : 1 ≤ w) (h2 : w ≤ 64) (hv : v.toNat < 2 ^ w) :
    extend v w = (v.setWidth w).signExtend 64 := by
  obtain ⟨k, rfl⟩ : ∃ k, w = k + 1 := ⟨w - 1, by omega⟩
  refine BitVec.eq_of_getLsbD_eq fun i hi => ?_
  rw [BitVec.getLsbD_signExtend, BitVec.getLsbD_setWidth, BitVec.msb_setWidth'', decide_eq_true hi, Bool.true_and]
  cases hs : v.getLsbD k with
  | false =>
    rw [extend_of_sign_clear h2 hv hs]
    split
    case isTrue h => rw [decide_eq_true h, Bool.true_and]
    case isFalse h => exact getLsbD_eq_false_of_lt hv (Nat.not_lt.1 h)
  | true =>
    rw [getLsbD_extend_of_sign_set h2 hs hi]
    split
    case isTrue h => rw [decide_eq_true h, decide_eq_false (by omega), Bool.false_xor, Bool.true_and]
    case isFalse h => rw [getLsbD_eq_false_of_lt hv (Nat.not_lt.1 h), decide_eq_true (by omega)]; rfl

/-- A value is signed in `n` bits when every bit from `n` on is its sign bit. -/
theorem eq_signExtend_iff {n : Nat} (h1 : 1 ≤ n) {x : Word} :
    x = (x.setWidth n).signExtend 64 ↔ ∀ i, n ≤ i → i < 64 → x.getLsbD i = x.getLsbD (n - 1) := by
  have hmsb : (x.setWidth n).msb = x.getLsbD (n - 1) := by
    rw [BitVec.msb_setWidth, decide_eq_true (show 0 < n from h1), Bool.true_and]
  constructor
  case mp =>
    intro hx i hi hi'
    rw [hx, BitVec.getLsbD_signExtend, decide_eq_true hi', if_neg (Nat.not_lt.2 hi), hmsb, Bool.true_and, ← hx]
  case mpr =>
    intro hbits
    refine BitVec.eq_of_getLsbD_eq fun i hi => ?_
    rw [BitVec.getLsbD_signExtend, decide_eq_true hi, Bool.true_and, hmsb]
    split
    case isTrue h => rw [BitVec.getLsbD_setWidth, decide_eq_true h, Bool.true_and]
    case isFalse h => exact hbits i (Nat.not_lt.1 h) hi

/-- A value signed in `n` bits is signed in any larger width. -/
theorem eq_signExtend_mono {n m : Nat} (h1 : 1 ≤ n) (hnm : n ≤ m) (h2 : m ≤ 64) {x : Word}
    (hx : x = (x.setWidth n).signExtend 64) : x = (x.setWidth m).signExtend 64 := by
  rw [eq_signExtend_iff h1] at hx
  refine (eq_signExtend_iff (h1.trans hnm)).2 fun i hi hi' => ?_
  rw [hx i (hnm.trans hi) hi']
  rcases hnm.eq_or_lt with rfl | hlt
  · rfl
  · exact (hx (m - 1) (by omega) (by omega)).symm

/-- A sign extension is signed in its own width. -/
theorem signExtend_setWidth_signExtend {n : Nat} (h2 : n ≤ 64) (y : BitVec n) :
    ((y.signExtend 64).setWidth n).signExtend 64 = y.signExtend 64 := by
  congr 1
  refine BitVec.eq_of_getLsbD_eq fun i hi => ?_
  rw [BitVec.getLsbD_setWidth, BitVec.getLsbD_signExtend, if_pos hi, decide_eq_true hi, decide_eq_true (by omega)]
  rfl

/-! ## What the shifters leave -/

theorem srl64_lt {n : Nat} (h1 : 1 ≤ n) (h2 : n ≤ 64) (x : Word) : (srl64 x (64 - n)).toNat < 2 ^ n := by
  rw [srl64_toNat, if_pos (by omega)]
  refine Nat.div_lt_of_lt_mul (lt_of_lt_of_eq x.isLt ?_)
  rw [← Nat.pow_add]
  congr 1; omega

theorem sra64_signed {n : Nat} (h1 : 1 ≤ n) (h2 : n ≤ 64) (x : Word) :
    sra64 x (64 - n) = ((sra64 x (64 - n)).setWidth n).signExtend 64 := by
  have hbit : ∀ i, n - 1 ≤ i → i < 64 → (sra64 x (64 - n)).getLsbD i = x.msb := by
    intro i hi hi'
    rw [sra64, if_pos (by omega), BitVec.getLsbD_sshiftRight, decide_eq_false (Nat.not_le.2 hi'), Bool.not_false,
      Bool.true_and]
    split
    case isTrue => rw [BitVec.msb_eq_getLsbD_last, show 64 - n + i = 64 - 1 by omega]
    case isFalse => rfl
  refine (eq_signExtend_iff h1).2 fun i hi hi' => ?_
  rw [hbit i (by omega) hi', hbit (n - 1) le_rfl (by omega)]

theorem zext64_le (k : Nat) (x : Word) : (zext64 k x).toNat ≤ x.toNat := by
  rw [zext64, BitVec.toNat_setWidth, BitVec.toNat_setWidth]
  exact (Nat.mod_le _ _).trans (Nat.mod_le _ _)

theorem toNat_setWidth_64_lt {n : Nat} (x : BitVec n) : (x.setWidth 64).toNat < 2 ^ n := by
  rw [BitVec.toNat_setWidth]
  exact lt_of_le_of_lt (Nat.mod_le _ _) x.isLt

/-! ## What an extraction gives -/

theorem extract_unsigned_lt (s : State) (c : Context) {bits : Nat} (h1 : 1 ≤ bits) (h2 : bits ≤ 64) :
    (extract s c bits false).value.toNat < 2 ^ bits := srl64_lt h1 h2 _

theorem extract_signed (s : State) (c : Context) {bits : Nat} (h1 : 1 ≤ bits) (h2 : bits ≤ 64) :
    (extract s c bits true).value = ((extract s c bits true).value.setWidth bits).signExtend 64 :=
  sra64_signed h1 h2 _

theorem u64_wide_value (s : State) (c : Context) {bits : Nat} (h : 32 < bits) :
    (u64 s c bits).value = shl64 (extract s c (bits - 32) false).value 32 |||
      (extract (extract s c (bits - 32) false).st (c.advance (bits - 32)) 32 false).value := by
  rw [u64, if_pos h]; rfl

theorem u64_lt (s : State) (c : Context) {bits : Nat} (h1 : 1 ≤ bits) (h2 : bits ≤ 64) :
    (u64 s c bits).value.toNat < 2 ^ bits := by
  by_cases h : bits ≤ 32
  case pos => rw [u64_narrow s c h]; exact extract_unsigned_lt s c h1 h2
  case neg =>
    have hhi := extract_unsigned_lt s c (bits := bits - 32) (by omega) (by omega)
    have hlo := extract_unsigned_lt (extract s c (bits - 32) false).st (c.advance (bits - 32)) (bits := 32)
      (by decide) (by decide)
    have hpow : 2 ^ bits = 2 ^ (bits - 32) * 2 ^ 32 := by rw [← Nat.pow_add]; congr 1; omega
    rw [u64_wide_value s c (by omega), BitVec.toNat_or, shl64_toNat, if_pos (by decide)]
    refine Nat.or_lt_two_pow (lt_of_le_of_lt (Nat.mod_le _ _) ?_) ?_
    · rw [hpow]; exact Nat.mul_lt_mul_of_pos_right hhi (Nat.two_pow_pos 32)
    · exact lt_of_lt_of_le hlo (Nat.pow_le_pow_right Nat.two_pos (by omega))

/-! ## The response of a command that completes with `OK` -/

/-- Where `r` is a next state that adds one `OK` response to those of `s`, its `RSP_AUX` is 0 and its `RSP_DATA`
satisfies `P`. -/
def AnswersOk (s : State) (P : Word → Prop) (r : Result) : Prop :=
  ∀ t d a, r = .next t → t.responses = s.responses ++ [⟨.ok, d, a⟩] → a = 0 ∧ P d

theorem answersOk_respond {s u : State} {P : Word → Prop} {d : Word} (hu : u.responses = s.responses) (h : P d) :
    AnswersOk s P (u.respond d 0) := by
  intro t d' a ht hr
  cases ht
  rw [State.deliver_responses, hu] at hr
  cases List.append_cancel_left hr
  exact ⟨rfl, h⟩

theorem answersOk_raise (s : State) (P : Word → Prop) {e : Status} (h : e ≠ .ok) : AnswersOk s P (s.raise e) := by
  intro t d a ht hr
  cases ht
  cases List.append_cancel_left hr
  exact absurd rfl h

theorem answersOk_withCursor {s : State} {P : Word → Prop} {k : Context → Result} (i : CtxId)
    (h : ∀ c, AnswersOk s P (k c)) : AnswersOk s P (s.withCursor i k) := by
  rcases s.holds_or_holdsNone i with ⟨c, hc⟩ | hn
  · rw [State.withCursor_holds hc]; exact h c
  · rw [State.withCursor_holdsNone hn]; exact answersOk_raise s P (by decide)

theorem answersOk_withWidth {s : State} {P : Word → Prop} {k : Context → Result} {max bits : Nat} (i : CtxId)
    (h : 1 ≤ bits → bits ≤ max → ∀ c, AnswersOk s P (k c)) : AnswersOk s P (s.withWidth max bits i k) := by
  cases hw : inWidth max bits with
  | false => rw [State.withWidth_illegal hw]; exact answersOk_raise s P (by decide)
  | true =>
    obtain ⟨h1, h2⟩ := inWidth_iff.1 hw
    rw [State.withWidth_legal hw]
    exact answersOk_withCursor i (h h1 h2)

theorem answersOk_extract {s : State} {P : Word → Prop} {d : Word} (c : Context) (bits : Nat) (signed : Bool)
    (i : CtxId) (h : P d) : AnswersOk s P ((extract s c bits signed).finish i d) :=
  answersOk_respond rfl h

theorem answersOk_u64 {s : State} {P : Word → Prop} {d : Word} (c : Context) (bits : Nat) (i : CtxId) (h : P d) :
    AnswersOk s P ((u64 s c bits).finish i d) :=
  answersOk_respond (show (u64 s c bits).st.responses = s.responses by rw [u64_st]; rfl) h

/-- `RSP_AUX` and `RSP_DATA` of a command that completed with `OK`, as O60 speaks of them. -/
theorem AnswersOk.of_exec {s t : State} {P : Word → Prop} {i : Instr} {d a : Word} (h : AnswersOk s P (exec i s))
    (he : exec i s = .next t) (hr : t.responses = s.responses ++ [⟨.ok, d, a⟩]) :
    ((∀ k, i ≠ .rembytes k) → a = 0) ∧ P d := by
  obtain ⟨ha, hd⟩ := h t d a he hr
  exact ⟨fun _ => ha, hd⟩

/-! ## The type of each command's response -/

theorem exec_init_answersOk (i : CtxId) (base len : Word) (s : State) :
    AnswersOk s (fun d => d = 0) (exec (.init i base len) s) := by
  show AnswersOk s _ (execInit i base len s)
  unfold execInit
  split
  · exact answersOk_raise s _ (by decide)
  · split
    · exact answersOk_respond rfl rfl
    · exact answersOk_raise s _ (by decide)

theorem exec_reset_answersOk (i : CtxId) (s : State) : AnswersOk s (fun d => d = 0) (exec (.reset i) s) :=
  answersOk_withCursor i fun _ => answersOk_respond rfl rfl

theorem exec_peek_answersOk (dst src : CtxId) (s : State) : AnswersOk s (fun d => d = 0) (exec (.peek dst src) s) := by
  show AnswersOk s _ (execPeek dst src s)
  unfold execPeek
  split
  · exact answersOk_raise s _ (by decide)
  · exact answersOk_withCursor src fun c => answersOk_respond rfl rfl

theorem exec_skip_answersOk (i : CtxId) (count : Word) (s : State) :
    AnswersOk s (fun d => d = 0) (exec (.skip i count) s) :=
  answersOk_withCursor i fun _ => answersOk_respond rfl rfl

theorem exec_rdu32_answersOk (i : CtxId) (bits : Nat) (s : State) :
    AnswersOk s (fun d => d.toNat < 2 ^ bits) (exec (.rdu32 i bits) s) :=
  answersOk_withWidth i fun h1 h2 c => answersOk_extract c bits false i <|
    lt_of_le_of_lt (zext64_le 32 _) (extract_unsigned_lt s c h1 (h2.trans (by decide)))

/-- The second extension, from 32 bits, changes nothing: the extraction has already extended the sign (R94). -/
theorem exec_rds32_answersOk (i : CtxId) (bits : Nat) (s : State) :
    AnswersOk s (fun d => d = (d.setWidth bits).signExtend 64) (exec (.rds32 i bits) s) :=
  answersOk_withWidth i fun h1 h2 c => answersOk_extract c bits true i <| by
    have hsigned := extract_signed s c h1 (h2.trans (by decide))
    have hsext : sext64 32 (extract s c bits true).value = (extract s c bits true).value :=
      (eq_signExtend_mono h1 h2 (by decide) hsigned).symm
    rw [hsext]
    exact hsigned

theorem exec_rdu64_answersOk (i : CtxId) (bits : Nat) (s : State) :
    AnswersOk s (fun d => d.toNat < 2 ^ bits) (exec (.rdu64 i bits) s) :=
  answersOk_withWidth i fun h1 h2 c => answersOk_u64 c bits i (u64_lt s c h1 h2)

theorem exec_rds64_answersOk (i : CtxId) (bits : Nat) (s : State) :
    AnswersOk s (fun d => d = (d.setWidth bits).signExtend 64) (exec (.rds64 i bits) s) :=
  answersOk_withWidth i fun h1 h2 c => answersOk_u64 c bits i <| by
    rw [extend_eq_signExtend h1 h2 (u64_lt s c h1 h2)]
    exact (signExtend_setWidth_signExtend h2 _).symm

theorem exec_rdbit_answersOk (i : CtxId) (s : State) : AnswersOk s (fun d => d.toNat ≤ 1) (exec (.rdbit i) s) :=
  answersOk_withCursor i fun c => answersOk_extract c 1 false i <|
    Nat.le_of_lt_succ (extract_unsigned_lt s c le_rfl (by decide))

theorem exec_rdle16_answersOk (i : CtxId) (s : State) : AnswersOk s (fun d => d.toNat < 2 ^ 16) (exec (.rdle16 i) s) :=
  answersOk_withCursor i fun c => answersOk_extract c 16 false i (toNat_setWidth_64_lt _)

theorem exec_rdle32_answersOk (i : CtxId) (s : State) : AnswersOk s (fun d => d.toNat < 2 ^ 32) (exec (.rdle32 i) s) :=
  answersOk_withCursor i fun c => answersOk_extract c 32 false i (toNat_setWidth_64_lt _)

theorem exec_rdle64_answersOk (i : CtxId) (s : State) : AnswersOk s (fun _ => True) (exec (.rdle64 i) s) :=
  answersOk_withCursor i fun c => answersOk_u64 c 64 i trivial

theorem exec_pos_answersOk (i : CtxId) (s : State) : AnswersOk s (fun _ => True) (exec (.pos i) s) :=
  answersOk_withCursor i fun _ => answersOk_respond rfl trivial

theorem exec_rembits_answersOk (i : CtxId) (s : State) : AnswersOk s (fun _ => True) (exec (.rembits i) s) :=
  answersOk_withCursor i fun _ => answersOk_respond rfl trivial

theorem exec_check_answersOk (i : CtxId) (s : State) : AnswersOk s (fun d => d.toNat ≤ 1) (exec (.check i) s) :=
  answersOk_withCursor i fun c => answersOk_respond rfl (by cases c.ovf <;> decide)

/-- Settles O60: each command by the type of its response; `REMBYTES` alone uses `RSP_AUX`. -/
theorem responsesCarryTheirType : Obligations.ResponsesCarryTheirType := by
  intro i s t data aux he hr
  cases i with
  | init i base len => exact ((exec_init_answersOk i base len s).of_exec he hr :)
  | reset i => exact ((exec_reset_answersOk i s).of_exec he hr :)
  | peek dst src => exact ((exec_peek_answersOk dst src s).of_exec he hr :)
  | skip i count => exact ((exec_skip_answersOk i count s).of_exec he hr :)
  | rdu32 i bits => exact ((exec_rdu32_answersOk i bits s).of_exec he hr :)
  | rds32 i bits => exact ((exec_rds32_answersOk i bits s).of_exec he hr :)
  | rdu64 i bits => exact ((exec_rdu64_answersOk i bits s).of_exec he hr :)
  | rds64 i bits => exact ((exec_rds64_answersOk i bits s).of_exec he hr :)
  | rdbit i => exact ((exec_rdbit_answersOk i s).of_exec he hr :)
  | rdle16 i => exact ((exec_rdle16_answersOk i s).of_exec he hr :)
  | rdle32 i => exact ((exec_rdle32_answersOk i s).of_exec he hr :)
  | rdle64 i => exact ((exec_rdle64_answersOk i s).of_exec he hr :)
  | pos i => exact ((exec_pos_answersOk i s).of_exec he hr :)
  | rembits i => exact ((exec_rembits_answersOk i s).of_exec he hr :)
  | rembytes i => exact ⟨fun h => absurd rfl (h i), trivial⟩
  | check i => exact ((exec_check_answersOk i s).of_exec he hr :)

end Sys2Proof.Machine
end

section
/-! PROOFS. What a command leaves of buffer memory, and what a host write leaves of a cursor (20_memory R41, R57). -/

namespace Sys2Proof.Machine

/-! ## Commands only read (20_memory R41, R52) -/

/-- From `s` to `u` buffer memory was read and not written: the cells, the address width and the pending writes are the
same, and the read record has grown. -/
structure State.OnlyReads (s u : State) : Prop where
  cfg : u.cfg = s.cfg
  mem : u.mem = s.mem
  pending : u.pending = s.pending
  reads : ∃ as, u.reads = s.reads ++ as

theorem State.OnlyReads.refl (s : State) : s.OnlyReads s := ⟨rfl, rfl, rfl, [], (List.append_nil _).symm⟩

theorem State.OnlyReads.logReads (s : State) (as : List Nat) : s.OnlyReads (s.logReads as) := ⟨rfl, rfl, rfl, as, rfl⟩

theorem State.OnlyReads.setCtx {s u : State} (h : s.OnlyReads u) (i : CtxId) (c : Context) :
    s.OnlyReads (u.setCtx i c) := ⟨h.cfg, h.mem, h.pending, h.reads⟩

theorem State.OnlyReads.deliver {s u : State} (h : s.OnlyReads u) (r : Response) : s.OnlyReads (u.deliver r) :=
  ⟨h.cfg, h.mem, h.pending, h.reads⟩

/-- Memory of the same cells and address width reads the same at every address. -/
theorem State.OnlyReads.memByte {s u : State} (h : s.OnlyReads u) (a : Nat) : u.memByte a = s.memByte a := by
  rw [State.memByte, State.memByte, State.addr, State.addr, h.cfg, h.mem]

theorem Effect.onlyReads {i : Instr} {s t : State} (h : Effect i s t) : s.OnlyReads t := by
  cases h with
  | error | query => exact (State.OnlyReads.refl s).deliver _
  | read | construct => exact ((State.OnlyReads.logReads s _).setCtx _ _).deliver _
  | skip | rewind | copy => exact ((State.OnlyReads.refl s).setCtx _ _).deliver _

/-- An offered command only reads: in reset it is dropped, otherwise it is illegal or performed. -/
theorem State.OnlyReads.of_offer {s u : State} {t : Transaction} (h : s.offer t = .next u) : s.OnlyReads u := by
  cases hr : s.rst with
  | true => rw [State.offer_of_rst hr] at h; cases h; exact .refl s
  | false =>
    rw [State.offer_of_not_rst hr] at h
    cases hd : decode t with
    | error e => rw [State.accept_of_decode_error hd] at h; cases h; exact (State.OnlyReads.refl s).deliver _
    | ok i => rw [State.accept_of_decode hd] at h; exact (exec_effect h).onlyReads

/-- Settles O13: taking the command off the queue leaves memory alone, and performing it only reads. -/
theorem commandsNeverWriteMemory : Obligations.CommandsNeverWriteMemory := by
  intro s u t rest hq hs
  rw [step_cons hq] at hs
  have honly := State.OnlyReads.of_offer hs
  exact ⟨honly.memByte, honly.mem, honly.pending, honly.reads⟩

/-! ## Host writes into a buffer (20_memory R57) -/

theorem State.disturbed_iff {s : State} {stale : List Nat} {a : Nat} :
    s.disturbed stale a = true ↔ s.addr a ∈ stale ∨ ∃ w ∈ s.pending, w.1 = s.addr a := by
  simp [State.disturbed]

/-- Byte `j` of the buffer lies in the buffer, also where its address wraps around (20_memory R50). -/
theorem Context.covers_add {addrW j : Nat} {c : Context} (hb : c.base < 2 ^ addrW) (hj : j < c.lsize) :
    c.covers addrW ((c.base + j) % 2 ^ addrW) = true := by
  refine decide_eq_true (lt_of_le_of_lt (le_of_eq_of_le ?_ (Nat.mod_le j (2 ^ addrW))) hj)
  have hdiv := Nat.mod_add_div (c.base + j) (2 ^ addrW)
  have hsum : (c.base + j) % 2 ^ addrW + 2 ^ addrW - c.base + 2 ^ addrW * ((c.base + j) / 2 ^ addrW)
      = j + 2 ^ addrW := by omega
  rw [← Nat.add_mul_mod_self_left _ (2 ^ addrW) ((c.base + j) / 2 ^ addrW), hsum, Nat.add_mod_right]

section
variable {addrW : Nat} {c : Context} (hv : c.valid = true) (ho : c.own = false)
include hv ho

/-- A valid aliased context notes a write exactly where its buffer holds the address (log 9). -/
theorem Context.mem_noteWrite_stale {a b : Nat} :
    b ∈ (c.noteWrite addrW a).stale ↔ b ∈ c.stale ∨ b = a ∧ c.covers addrW b = true := by
  cases hcov : c.covers addrW a with
  | true =>
    have hnote : c.noteWrite addrW a = { c with stale := c.stale.insert a } := by
      simp [Context.noteWrite, hv, ho, hcov]
    rw [hnote, List.mem_insert_iff, or_comm]
    refine or_congr_right ⟨?_, And.left⟩
    rintro rfl
    exact ⟨rfl, hcov⟩
  | false =>
    have hnote : c.noteWrite addrW a = c := by simp [Context.noteWrite, hcov]
    rw [hnote]
    refine ⟨Or.inl, Or.rec id ?_⟩
    rintro ⟨rfl, h⟩
    exact absurd (hcov.symm.trans h) Bool.false_ne_true

theorem Context.mem_foldl_noteWrite_stale {b : Nat} (hcov : c.covers addrW b = true) (ws : List Host.Cell) :
    b ∈ (ws.foldl (fun c w => c.noteWrite addrW w.1) c).stale ↔ b ∈ c.stale ∨ ∃ w ∈ ws, w.1 = b := by
  induction ws generalizing c with
  | nil => simp
  | cons w ws ih =>
    have hmem := Context.mem_noteWrite_stale (addrW := addrW) hv ho (a := w.1) (b := b)
    obtain ⟨st, hst⟩ := c.noteWrite_eq addrW w.1
    rw [hst] at hmem
    rw [List.foldl_cons, hst, ih (c := { c with stale := st }) hv ho hcov, hmem, List.exists_mem_cons_iff, or_assoc]
    simp [hcov, eq_comm]

end

theorem State.makeVisible_ctx? (s : State) (i : CtxId) :
    s.makeVisible.ctx? i = (s.ctx? i).map fun c => s.pending.foldl (fun c w => c.noteWrite s.cfg.addrW w.1) c :=
  List.getElem?_map

/-- Once the pending writes are visible, a cursor is the same but for `stale`, and a byte of its aliased buffer is
disturbed exactly when it was: what was pending has become stale. -/
theorem State.makeVisible_holds {s : State} {i : CtxId} {c : Context} (h : s.Inv) (hc : s.Holds i c)
    (ho : c.own = false) :
    ∃ st, s.makeVisible.Holds i { c with stale := st } ∧
      ∀ j, j < c.lsize → s.makeVisible.disturbed st (c.base + j) = s.disturbed c.stale (c.base + j) := by
  have hbase : c.base < 2 ^ s.cfg.addrW := (h.fits_of_ctx? hc.1).2.2
  obtain ⟨st, hst⟩ := Context.foldl_noteWrite_eq s.cfg.addrW s.pending c
  refine ⟨st, ⟨?_, hc.2⟩, fun j hj => Bool.eq_iff_iff.2 ?_⟩
  · rw [State.makeVisible_ctx?, hc.1, ← hst]; rfl
  · have hmem := Context.mem_foldl_noteWrite_stale hc.2 ho (Context.covers_add hbase hj) s.pending
    rw [hst] at hmem
    rw [State.disturbed_iff, State.disturbed_iff, State.makeVisible_pending]
    exact (or_iff_left (by simp)).trans hmem

/-- Settles O19: the step makes the pending writes visible, and a written byte of the buffer goes from pending to stale. -/
theorem breachMarksWrittenBytes : Obligations.BreachMarksWrittenBytes := by
  intro s rest i c h hc ho hq
  obtain ⟨st, hu, hdist⟩ := State.makeVisible_holds (h.withInbox rest) hc ho
  exact ⟨_, _, step_cons hq, hu, rfl, hdist⟩

/-! ## The bytes of a window (20_memory R43) -/

/-- Byte `k` of a window is byte `off + k` of the physical buffer, read with draw number `k` of the window. -/
theorem State.load64BE_byte (s : State) (c : Context) (off : Nat) {k : Nat} (hk : k < 8) :
    (s.load64BE c off).extractLsb' (56 - 8 * k) 8 = s.physByte c (off + k) (s.draws + k) := by
  refine BitVec.eq_of_getLsbD_eq fun i hi => ?_
  have hbit := s.load64BE_getLsbD c off (8 * k + (7 - i)) (by omega)
  rw [show (8 * k + (7 - i)) / 8 = k by omega, show 7 - (8 * k + (7 - i)) % 8 = i by omega,
    show 63 - (8 * k + (7 - i)) = 56 - 8 * k + i by omega] at hbit
  rw [BitVec.getLsbD_extractLsb', decide_eq_true hi, Bool.true_and, hbit]

theorem State.physByte_disturbed {s : State} {c : Context} {j : Nat} (ho : c.own = false)
    (hd : s.disturbed c.stale (c.base + j) = true) (draw : Nat) : s.physByte c j draw = Config.freeByte draw := by
  rw [State.physByte, ho, if_neg Bool.false_ne_true, State.readByte, if_pos hd]

/-- Settles O20: a disturbed byte of the window is drawn, and an aliased window takes eight draw numbers. -/
theorem disturbedByteIsFreeDraw : Obligations.DisturbedByteIsFreeDraw := by
  intro s c off k ho hk hd
  refine ⟨(s.load64BE_byte c off hk).trans (State.physByte_disturbed ho hd _), ?_⟩
  rw [State.logReads_draws, length_windowReads, ho, if_neg Bool.false_ne_true]

end Sys2Proof.Machine
end

section
/-! PROOFS. The byte reads of the commands: which, how many, within which bounds (20_memory R47, R48). -/

namespace Sys2Proof.Machine

/-! ## The reads of a read command -/

theorem length_readsOf (s : State) (c : Context) (bits : Nat) :
    (readsOf s c bits).length = if c.own then 0 else if 32 < bits then 16 else 8 := by
  by_cases hb : 32 < bits
  case pos =>
    rw [readsOf, if_pos hb, if_pos hb, List.length_append, length_windowReads, length_windowReads]
    cases c.own <;> rfl
  case neg => rw [readsOf_narrow s c (Nat.not_lt.1 hb), length_windowReads, if_neg hb]

theorem readsOf_own (s : State) {c : Context} (ho : c.own = true) (bits : Nat) : readsOf s c bits = [] := by
  rw [← List.length_eq_zero_iff, length_readsOf, if_pos ho]

/-- Both windows of a read lie in the buffer, wherever the position is (20_memory R47). -/
theorem mem_readsOf {s : State} {c : Context} (hc : c.cursorOk) {bits a : Nat} (ha : a ∈ readsOf s c bits) :
    ∃ j, j < c.lsize ∧ a = s.addr (c.base + j) := by
  rw [readsOf, List.mem_append] at ha
  rcases ha with ha | ha
  · exact State.mem_windowReads hc c.wordOffset_le_limit ha
  · split at ha
    case isTrue => exact State.mem_windowReads hc (c.advance (bits - 32)).wordOffset_le_limit ha
    case isFalse => cases ha

theorem State.length_initReads (s : State) (a len : Nat) :
    (s.initReads a len).length = if len < 8 then len else 0 := by
  unfold State.initReads
  split
  case isTrue => rw [List.length_map, List.length_range]
  case isFalse => rfl

/-! ## The reads of every command -/

/-- A command other than `INIT` makes no read, or is a read command and makes those of its windows. -/
theorem Effect.reads_cases {i : Instr} {s t : State} (h : Effect i s t) (hinit : ∀ k base len, i ≠ .init k base len) :
    t.reads = s.reads ∨
      ∃ c, isRead i = true ∧ s.Holds (target i) c ∧ t.reads = s.reads ++ readsOf s c (bitsConsumed i) := by
  cases h with
  | error | query | skip | rewind | copy => exact .inl rfl
  | read c hi _ hc => exact .inr ⟨c, hi, hc, rfl⟩
  | construct base len hi => exact absurd hi (hinit _ base len)

theorem Effect.reads_of_nonRead {i : Instr} {s t : State} (h : Effect i s t) (hi : isRead i = false)
    (hinit : ∀ k base len, i ≠ .init k base len) : t.reads = s.reads := by
  rcases h.reads_cases hinit with hnone | ⟨_, hread, _⟩
  · exact hnone
  · exact absurd (hi.symm.trans hread) Bool.false_ne_true

/-- Settles O32: every window offset is capped by `LIMIT`, a read makes the reads of its windows, and those lie in the
buffer. -/
theorem windowReadsInBounds : Obligations.WindowReadsInBounds := by
  refine ⟨fun s i c n _ _ => ?_, fun i s c hw hi hc => ?_, fun i s t c h hc hinit he => ?_⟩
  · have hle : (c.advance n).wordOffset ≤ c.limit := (c.advance n).wordOffset_le_limit
    exact ⟨hle, by rw [Context.plen_eq]; omega, (c.advance n).wordOffset_mul_le_pos⟩
  · obtain ⟨d, hd⟩ := exec_read hi hw hc
    exact ⟨_, hd, rfl⟩
  · rcases (exec_effect he).reads_cases hinit with hnone | ⟨d, _, hd, hmade⟩
    · exact ⟨[], by rw [hnone, List.append_nil], fun _ => rfl, nofun⟩
    · cases hd.unique hc
      exact ⟨_, hmade, fun ho => readsOf_own s ho _, fun a ha => mem_readsOf (h.cursorOk_of_holds hc) ha⟩

/-! ## How many reads (20_memory R48) -/

/-- The one response a command adds. -/
theorem State.deliver_response_eq {s u : State} {r r' : Response} (hu : u.responses = s.responses)
    (hr : (u.deliver r').responses = s.responses ++ [r]) : r = r' := by
  rw [State.deliver_responses, hu] at hr
  exact (List.singleton_inj.1 (List.append_cancel_left hr)).symm

section
variable {i : Instr} {s t : State} {r : Response} (h : Effect i s t) (hr : t.responses = s.responses ++ [r])
include h hr

theorem Effect.reads_of_error (herr : r.status ≠ .ok) : t.reads = s.reads := by
  cases h with
  | error => rfl
  | query | read | skip | rewind | copy | construct =>
    rw [State.deliver_response_eq (s := s) rfl hr] at herr; exact absurd rfl herr

/-- A read command that completes with `OK` has a legal width and has made the reads of its windows. -/
theorem Effect.reads_of_read (hok : r.status = .ok) (hi : isRead i = true) {c : Context}
    (hc : s.ctx? (target i) = some c) : i.wf = true ∧ t.reads = s.reads ++ readsOf s c (bitsConsumed i) := by
  cases h with
  | error e he => rw [State.deliver_response_eq (s := s) rfl hr] at hok; exact absurd hok he
  | query _ hn => exact absurd (hn.symm.trans hi) Bool.false_ne_true
  | read d _ hw hd => cases hd.1.symm.trans hc; exact ⟨hw, rfl⟩
  | skip _ _ hn | rewind _ hn | copy _ _ hn | construct _ _ hn => rw [hn] at hi; cases hi

/-- The count of a read command, by its width. -/
theorem Effect.length_reads_of_read (hok : r.status = .ok) (hi : isRead i = true) {c : Context}
    (hc : s.ctx? (target i) = some c) :
    t.reads.length = s.reads.length + if c.own then 0 else if 32 < bitsConsumed i then 16 else 8 := by
  rw [(h.reads_of_read hr hok hi hc).2, List.length_append, length_readsOf]

end

/-- `INIT` raises an error, or makes its reads and writes the context it constructs (40_construction R80). -/
theorem exec_init_cases (i : CtxId) (base len : Word) (s : State) :
    (∃ e, e ≠ .ok ∧ exec (.init i base len) s = .next (s.deliver ⟨e, 0, 0⟩)) ∨
      exec (.init i base len) s = .next (((s.logReads (s.initReads (s.baseOf base) len.toNat)).setCtx i
        (s.initContext (s.baseOf base) len.toNat)).deliver ⟨.ok, 0, 0⟩) := by
  cases hc : s.ctx? i with
  | none => exact .inl ⟨.noctx, by decide, by simp [exec, execInit, hc, State.raise_eq]⟩
  | some c =>
    cases hl : s.lenFits len with
    | false => exact .inl ⟨.range, by decide, by simp [exec, execInit, hc, hl, State.raise_eq]⟩
    | true => exact .inr (by simp [exec, execInit, hc, hl, State.respond_eq])

/-- The count of `INIT`: the bytes of an owned copy. -/
theorem exec_init_length_reads {i : CtxId} {base len : Word} {s t : State} {r : Response}
    (he : exec (.init i base len) s = .next t) (hr : t.responses = s.responses ++ [r]) (hok : r.status = .ok) :
    t.reads.length = s.reads.length + if len.toNat < 8 then len.toNat else 0 := by
  rcases exec_init_cases i base len s with ⟨e, hne, herr⟩ | hinit
  · cases herr.symm.trans he
    rw [State.deliver_response_eq (s := s) rfl hr] at hok
    exact absurd hok hne
  · cases hinit.symm.trans he
    exact List.length_append.trans (congrArg _ (s.length_initReads _ _))

/-- Settles O33: no read on an error; `INIT` counts its copy, a read command its windows, any other command nothing. -/
theorem readCountsExact : Obligations.ReadCountsExact := by
  intro i s t r he hr
  have heff := exec_effect he
  refine ⟨heff.reads_of_error hr, fun hok c hc => ?_⟩
  cases i with
  | init i base len => exact exec_init_length_reads he hr hok
  | rdu32 _ bits | rds32 _ bits =>
    have hnarrow : bits ≤ 32 := (inWidth_iff.1 (heff.reads_of_read hr hok rfl hc).1).2
    exact (heff.length_reads_of_read hr hok rfl hc).trans (by rw [bitsConsumed, if_neg (Nat.not_lt.2 hnarrow)])
  | rdu64 | rds64 | rdbit | rdle16 | rdle32 | rdle64 => exact heff.length_reads_of_read hr hok rfl hc
  | reset | peek | skip | pos | rembits | rembytes | check =>
    exact congrArg List.length (heff.reads_of_nonRead rfl nofun)

end Sys2Proof.Machine
end

section
/-! PROOFS. Consuming bits: the position and the frame of reads, `SKIP` and the queries (10_state R31, 20_memory R45). -/

namespace Sys2Proof.Machine

theorem State.setCtx_of_ctx? {s : State} {i : CtxId} {c : Context} (h : s.ctx? i = some c) : s.setCtx i c = s := by
  obtain ⟨hlt, rfl⟩ := List.getElem?_eq_some_iff.1 h
  rw [State.setCtx, List.set_getElem_self]

/-- Reads made, one context written, one response: every port and every other context is the same. -/
theorem State.onlyContext_setCtx (s : State) (as : List Nat) (i : CtxId) (c : Context) (r : Response) :
    s.OnlyContext (((s.logReads as).setCtx i c).deliver r) i :=
  ⟨⟨rfl, rfl, rfl, rfl, fun _ => rfl, (s.logReads as).setCtx_nCtx i c⟩, fun _ hj => State.setCtx_ctx?_other c hj⟩

theorem Context.advance_zero (c : Context) : c.advance 0 = c := by
  have hpos : adv c.pos 0 = c.pos := BitVec.eq_of_toNat_eq (by have := c.pos.isLt; rw [toNat_adv]; omega)
  rw [Context.advance, hpos]

/-- A query answers `OK` and consumes nothing: its reads are none, the context it writes is the one it had. -/
theorem query_advances {s : State} {i : CtxId} {c : Context} (hc : s.Holds i c) (data aux : Word) :
    s.respond data aux = .next (((s.logReads []).setCtx i (c.advance 0)).deliver ⟨.ok, data, aux⟩) := by
  rw [State.logReads_nil, c.advance_zero, State.setCtx_of_ctx? hc.1, State.respond_eq]

/-- A command that neither constructs nor rewinds a cursor answers `OK` and advances it by the bits it consumes. -/
theorem exec_advances {i : Instr} {s : State} {c : Context} (hw : i.wf = true) (hc : s.Holds (target i) c)
    (hinit : ∀ k base len, i ≠ .init k base len) (hpeek : ∀ d q, i ≠ .peek d q) (hreset : ∀ k, i ≠ .reset k) :
    ∃ as data aux, exec i s = .next (((s.logReads as).setCtx (target i)
      (c.advance (bitsConsumed i))).deliver ⟨.ok, data, aux⟩) := by
  cases i with
  | init k base len => exact absurd rfl (hinit k base len)
  | peek d q => exact absurd rfl (hpeek d q)
  | reset k => exact absurd rfl (hreset k)
  | rdu32 | rds32 | rdu64 | rds64 | rdbit | rdle16 | rdle32 | rdle64 =>
    obtain ⟨data, hd⟩ := exec_read rfl hw hc
    exact ⟨_, data, 0, hd⟩
  | skip k count => exact ⟨[], 0, 0, (State.withCursor_holds hc _).trans (by rw [State.logReads_nil]; rfl)⟩
  | pos | rembits | rembytes | check =>
    exact ⟨[], _, _, (State.withCursor_holds hc _).trans (query_advances hc _ _)⟩

/-- Settles O38: the advanced context is what the command leaves under its index, in its frame. -/
theorem positionAdvancesByWidth : Obligations.PositionAdvancesByWidth := by
  intro i s c hw hc hinit hpeek hreset
  obtain ⟨as, data, aux, he⟩ := exec_advances hw hc hinit hpeek hreset
  exact ⟨_, data, aux, he, rfl, State.setCtx_ctx?_self (s := s.logReads as) _ (State.lt_of_ctx? hc.1),
    s.onlyContext_setCtx as _ _ _⟩

end Sys2Proof.Machine
end

section
/-! PROOFS. The decoder and the encoder are inverse to each other (30_encoding R60 to R66, R69). -/

namespace Sys2Proof

/-! ## The opcode map -/

theorem rows_opc_nodup : (rows.map Row.opc).Nodup := by decide

theorem Row.selects_iff {r : Row} {w : CmdWord} :
    r.selects w = true ↔ w &&& r.format.mask = r.opc.setWidth 32 := beq_iff_eq

/-- Every format's mask keeps all of `OPC`. -/
theorem Row.opc_of_selects {r : Row} {w : CmdWord} (h : r.selects w = true) : r.opc = opcField w := by
  rw [Row.selects_iff] at h
  cases hf : r.format with rw [hf] at h
  | n => exact ((mask_n_iff _ _).1 h).1.symm
  | w32 => exact ((mask_w32_iff _ _).1 h).1.symm
  | w64 => exact ((mask_w64_iff _ _).1 h).1.symm
  | p => exact ((mask_p_iff _ _).1 h).1.symm

/-- Settles O5: the opcodes of the table are distinct, and a row selects words of its own opcode only. -/
theorem opcodeRowsDoNotOverlap : Obligations.OpcodeRowsDoNotOverlap :=
  (List.pairwise_map.1 rows_opc_nodup).imp fun hne _ ⟨hr, hq⟩ =>
    hne ((Row.opc_of_selects hr).trans (Row.opc_of_selects hq).symm)

/-- The row of an opcode, which is the only one. -/
theorem find?_rows_eq_some_iff {o : BitVec 8} {r : Row} :
    rows.find? (fun q => q.opc == o) = some r ↔ r ∈ rows ∧ r.opc = o := by
  constructor
  · intro h
    exact ⟨List.mem_of_find?_eq_some h, by simpa using List.find?_some h⟩
  · rintro ⟨hr, rfl⟩
    obtain ⟨q, hq⟩ := Option.isSome_iff_exists.1
      (List.find?_isSome (p := fun q : Row => q.opc == r.opc).2 ⟨r, hr, beq_self_eq_true _⟩)
    have hopc : q.opc = r.opc := by simpa using List.find?_some hq
    rw [hq, List.inj_on_of_nodup_map rows_opc_nodup (List.mem_of_find?_eq_some hq) hr hopc]

theorem decode_eq_ok_iff {t : Transaction} {i : Instr} :
    decode t = .ok i ↔ ∃ r ∈ rows, r.selects t.cmd = true ∧ r.build t = i := by
  constructor
  · intro h
    unfold decode at h
    split at h
    case h_1 => cases h
    case h_2 r hr =>
      split at h
      case isTrue hs => exact ⟨r, (find?_rows_eq_some_iff.1 hr).1, hs, Except.ok.inj h⟩
      case isFalse => cases h
  · rintro ⟨r, hr, hs, rfl⟩
    rw [decode, find?_rows_eq_some_iff.2 ⟨hr, Row.opc_of_selects hs⟩]
    exact if_pos hs

/-! ## Decoding a laid-out word, format by format -/

theorem decode_of_row {r : Row} {t : Transaction} (k : Nat) (hr : rows[k]? = some r)
    (hs : t.cmd &&& r.format.mask = r.opc.setWidth 32) : decode t = .ok (r.build t) :=
  decode_eq_ok_iff.2 ⟨r, List.mem_of_getElem? hr, Row.selects_iff.2 hs, rfl⟩

/-- Format N. Its rows take the context and, of `INIT` and `SKIP`, the operands. -/
theorem decode_layout_n {o : BitVec 8} {a b : Word} (k : Nat) (mk : CtxId → Word → Word → Instr)
    (hr : rows[k]? = some ⟨o, .n, fun t => mk (ctxField t.cmd) t.opa t.opb⟩) (c : CtxId) :
    decode ⟨layout 0 c 0 o, a, b⟩ = .ok (mk c a b) := by
  simpa using decode_of_row (t := ⟨layout 0 c 0 o, a, b⟩) k hr (layout_mask_n c o)

theorem decode_layout_p {o : BitVec 8} {a b : Word} (k : Nat) (mk : CtxId → CtxId → Instr)
    (hr : rows[k]? = some ⟨o, .p, fun t => mk (ctxField t.cmd) (sctxField t.cmd)⟩) (d s : CtxId) :
    decode ⟨layout s d 0 o, a, b⟩ = .ok (mk d s) := by
  simpa using decode_of_row (t := ⟨layout s d 0 o, a, b⟩) k hr (layout_mask_p s d o)

theorem widthOf_layout {bits : Nat} (h : inWidth Config.maxW64 bits = true) (s c : CtxId) (o : BitVec 8) :
    widthOf (layout s c (wm1Of bits) o) = bits := by
  rw [widthOf, wm1Field_layout, toNat_wm1Of h]

theorem decode_layout_w64 {o : BitVec 8} {a b : Word} (k : Nat) (mk : CtxId → Nat → Instr)
    (hr : rows[k]? = some ⟨o, .w64, fun t => mk (ctxField t.cmd) (widthOf t.cmd)⟩) (c : CtxId) {bits : Nat}
    (h : inWidth Config.maxW64 bits = true) : decode ⟨layout 0 c (wm1Of bits) o, a, b⟩ = .ok (mk c bits) := by
  simpa [widthOf_layout h] using
    decode_of_row (t := ⟨layout 0 c (wm1Of bits) o, a, b⟩) k hr (layout_mask_w64 c (wm1Of bits) o)

theorem decode_layout_w32 {o : BitVec 8} {a b : Word} (k : Nat) (mk : CtxId → Nat → Instr)
    (hr : rows[k]? = some ⟨o, .w32, fun t => mk (ctxField t.cmd) (widthOf t.cmd)⟩) (c : CtxId) {bits : Nat}
    (h : inWidth Config.maxW32 bits = true) : decode ⟨layout 0 c (wm1Of bits) o, a, b⟩ = .ok (mk c bits) := by
  simpa [widthOf_layout (inWidth_w64_of_w32 h)] using
    decode_of_row (t := ⟨layout 0 c (wm1Of bits) o, a, b⟩) k hr (layout_mask_w32 c (wm1Of bits) o (wm1Of_bit5 h))

/-- Settles O1: each command's word is laid out in the format of its row, the row of the table that is named here by
its place. -/
theorem decodeInvertsEncode : Obligations.DecodeInvertsEncode := by
  intro i hw
  cases i with
  | init c base len => exact decode_layout_n 0 .init rfl c
  | reset c => exact decode_layout_n 1 (fun c _ _ => .reset c) rfl c
  | peek d s => exact decode_layout_p 2 .peek rfl d s
  | skip c count => exact decode_layout_n 3 (fun c a _ => .skip c a) rfl c
  | rdu32 c bits => exact decode_layout_w32 4 .rdu32 rfl c hw
  | rds32 c bits => exact decode_layout_w32 5 .rds32 rfl c hw
  | rdu64 c bits => exact decode_layout_w64 6 .rdu64 rfl c hw
  | rds64 c bits => exact decode_layout_w64 7 .rds64 rfl c hw
  | rdbit c => exact decode_layout_n 8 (fun c _ _ => .rdbit c) rfl c
  | rdle16 c => exact decode_layout_n 9 (fun c _ _ => .rdle16 c) rfl c
  | rdle32 c => exact decode_layout_n 10 (fun c _ _ => .rdle32 c) rfl c
  | rdle64 c => exact decode_layout_n 11 (fun c _ _ => .rdle64 c) rfl c
  | pos c => exact decode_layout_n 12 (fun c _ _ => .pos c) rfl c
  | rembits c => exact decode_layout_n 13 (fun c _ _ => .rembits c) rfl c
  | rembytes c => exact decode_layout_n 14 (fun c _ _ => .rembytes c) rfl c
  | check c => exact decode_layout_n 15 (fun c _ _ => .check c) rfl c

/-- Settles O6: each word of the spec is the encoding of the command it stands for. -/
theorem specWordsDecode : Obligations.SpecWordsDecode :=
  ⟨decodeInvertsEncode (.rdu32 0 32) rfl, decodeInvertsEncode (.rdu64 0 33) rfl, decodeInvertsEncode (.rdu32 2 9) rfl,
    decodeInvertsEncode (.peek 1 0) rfl, decodeInvertsEncode (.check 0) rfl, decodeInvertsEncode (.rds64 3 64) rfl,
    decodeInvertsEncode (.rdle64 1) rfl, decodeInvertsEncode (.init 0 0x3000 6) rfl⟩

/-! ## Encoding a decoded word -/

/-- The six fields make up the whole word (R61). -/
theorem layout_fields {w : CmdWord} (h0 : res0Field w = 0) (h1 : res1Field w = 0) :
    layout (sctxField w) (ctxField w) (wm1Field w) (opcField w) = w := by
  calc layout (sctxField w) (ctxField w) (wm1Field w) (opcField w)
      = res1Field w ++ w.extractLsb' 20 4 ++ w.extractLsb' 16 4 ++ res0Field w ++ wm1Field w ++ opcField w := by
        rw [h0, h1]; rfl
    _ = w := by
        unfold res1Field res0Field wm1Field opcField
        iterate 5 rw [BitVec.extractLsb'_append_extractLsb'_eq_extractLsb' (by rfl)]
        exact BitVec.extractLsb'_eq_self

theorem sctxField_eq_zero {w : CmdWord} (h : w.extractLsb' 20 4 = 0) : sctxField w = 0 := by
  rw [sctxField, h]; rfl

theorem wm1Of_widthOf (w : CmdWord) : wm1Of (widthOf w) = wm1Field w := by
  rw [wm1Of, widthOf, Nat.add_sub_cancel, BitVec.ofNat_toNat, BitVec.setWidth_eq]

theorem widthOf_inWidth (w : CmdWord) : inWidth Config.maxW64 (widthOf w) = true :=
  inWidth_iff.2 ⟨Nat.le_add_left _ _, (wm1Field w).isLt⟩

theorem widthOf_inWidth_w32 {w : CmdWord} (h : w.extractLsb' 13 1 = 0) :
    inWidth Config.maxW32 (widthOf w) = true := by
  have hbit : (wm1Field w).toNat < 32 := by
    have hdrop := congrArg BitVec.toNat h
    simp only [BitVec.extractLsb'_toNat, Nat.shiftRight_eq_div_pow, BitVec.ofNat_eq_ofNat, BitVec.toNat_ofNat] at hdrop
    simp only [wm1Field, BitVec.extractLsb'_toNat, Nat.shiftRight_eq_div_pow]
    omega
  exact inWidth_iff.2 ⟨Nat.le_add_left _ _, hbit⟩

/-! A word that passes its format's mask is laid out from its own fields. -/

section
variable {w : CmdWord} {o : BitVec 8}

theorem layout_of_mask_n (h : w &&& Format.n.mask = o.setWidth 32) : layout 0 (ctxField w) 0 o = w := by
  obtain ⟨hopc, hwm1, hres0, hsctx, hres1⟩ := (mask_n_iff _ _).1 h
  calc layout 0 (ctxField w) 0 o
      = layout (sctxField w) (ctxField w) (wm1Field w) (opcField w) := by
        rw [sctxField_eq_zero hsctx, wm1Field, hwm1, opcField, hopc]
    _ = w := layout_fields hres0 hres1

theorem layout_of_mask_p (h : w &&& Format.p.mask = o.setWidth 32) :
    layout (sctxField w) (ctxField w) 0 o = w := by
  obtain ⟨hopc, hwm1, hres0, hres1⟩ := (mask_p_iff _ _).1 h
  calc layout (sctxField w) (ctxField w) 0 o
      = layout (sctxField w) (ctxField w) (wm1Field w) (opcField w) := by rw [wm1Field, hwm1, opcField, hopc]
    _ = w := layout_fields hres0 hres1

theorem layout_of_mask_w64 (h : w &&& Format.w64.mask = o.setWidth 32) :
    layout 0 (ctxField w) (wm1Of (widthOf w)) o = w := by
  obtain ⟨hopc, hres0, hsctx, hres1⟩ := (mask_w64_iff _ _).1 h
  calc layout 0 (ctxField w) (wm1Of (widthOf w)) o
      = layout (sctxField w) (ctxField w) (wm1Field w) (opcField w) := by
        rw [sctxField_eq_zero hsctx, wm1Of_widthOf, opcField, hopc]
    _ = w := layout_fields hres0 hres1

/-- Format W32 is format W64 with one more bit that must be 0. -/
theorem mask_w32_iff_w64 :
    w &&& Format.w32.mask = o.setWidth 32 ↔ w.extractLsb' 13 1 = 0 ∧ w &&& Format.w64.mask = o.setWidth 32 := by
  rw [mask_w32_iff, mask_w64_iff]
  tauto

end

/-- What a row builds from a word it selects is a well-formed command with that word: the rows in their order. -/
theorem build_wf_and_commandWord (t : Transaction) :
    ∀ r ∈ rows, r.selects t.cmd = true → (r.build t).wf = true ∧ commandWord (r.build t) = t.cmd := by
  simp only [rows, List.forall_mem_cons, Row.selects_iff, mask_w32_iff_w64]
  exact ⟨
    fun h => ⟨rfl, layout_of_mask_n h⟩,
    fun h => ⟨rfl, layout_of_mask_n h⟩,
    fun h => ⟨rfl, layout_of_mask_p h⟩,
    fun h => ⟨rfl, layout_of_mask_n h⟩,
    fun ⟨hbit, h⟩ => ⟨widthOf_inWidth_w32 hbit, layout_of_mask_w64 h⟩,
    fun ⟨hbit, h⟩ => ⟨widthOf_inWidth_w32 hbit, layout_of_mask_w64 h⟩,
    fun h => ⟨widthOf_inWidth _, layout_of_mask_w64 h⟩,
    fun h => ⟨widthOf_inWidth _, layout_of_mask_w64 h⟩,
    fun h => ⟨rfl, layout_of_mask_n h⟩,
    fun h => ⟨rfl, layout_of_mask_n h⟩,
    fun h => ⟨rfl, layout_of_mask_n h⟩,
    fun h => ⟨rfl, layout_of_mask_n h⟩,
    fun h => ⟨rfl, layout_of_mask_n h⟩,
    fun h => ⟨rfl, layout_of_mask_n h⟩,
    fun h => ⟨rfl, layout_of_mask_n h⟩,
    fun h => ⟨rfl, layout_of_mask_n h⟩,
    nofun⟩

/-- Only the first row builds `INIT`, from the transaction's operands. -/
theorem build_eq_init {t : Transaction} {c : CtxId} {base len : Word} :
    ∀ r ∈ rows, r.build t = .init c base len → base = t.opa ∧ len = t.opb := by
  simp only [rows, List.forall_mem_cons]
  refine ⟨?_, by simp⟩
  rintro ⟨⟩
  exact ⟨rfl, rfl⟩

/-- Only the row of opcode 4 builds `SKIP`, from the transaction's operand. -/
theorem build_eq_skip {t : Transaction} {c : CtxId} {count : Word} :
    ∀ r ∈ rows, r.build t = .skip c count → count = t.opa := by
  simp only [rows, List.forall_mem_cons]
  refine ⟨nofun, nofun, nofun, ?_, by simp⟩
  rintro ⟨⟩
  rfl

/-- Settles O2: a decoded command is what the selecting row builds. -/
theorem encodeInvertsDecode : Obligations.EncodeInvertsDecode := by
  intro t i h
  obtain ⟨r, hr, hs, rfl⟩ := decode_eq_ok_iff.1 h
  obtain ⟨hwf, hcmd⟩ := build_wf_and_commandWord t r hr hs
  exact ⟨hwf, hcmd, fun _ _ _ => build_eq_init r hr, fun _ _ => build_eq_skip r hr⟩

/-! ## The operands -/

/-- Outside `INIT` and `SKIP` a row builds its command from the word alone. -/
theorem build_congr_of_cmd {t u : Transaction} (h : t.cmd = u.cmd) :
    ∀ r ∈ rows, r.opc ≠ 0x01 → r.opc ≠ 0x04 → r.build t = r.build u := by
  simp [rows, h]

/-- Settles O4: both transactions find the same row, and it builds the same command from both. -/
theorem operandsIgnoredOutsideInitAndSkip : Obligations.OperandsIgnoredOutsideInitAndSkip := by
  intro t u h hinit hskip
  unfold decode
  rw [← h]
  split
  case h_1 => rfl
  case h_2 r hr =>
    obtain ⟨hmem, hopc⟩ := find?_rows_eq_some_iff.1 hr
    rw [build_congr_of_cmd h r hmem (hopc ▸ hinit) (hopc ▸ hskip)]

/-! ## The pseudo-instructions -/

theorem layout_ctx : ∀ c : CtxId, layout 0 c 0 0 = BitVec.ofNat 32 c.val <<< 16 := by decide

/-- `CTX` is in bits 19:16, by itself: field by field, a layout on `c` is one on `c0` or'ed with `c`'s field. -/
theorem layout_eq_or_ctx (c : CtxId) (w : BitVec 6) (o : BitVec 8) :
    layout 0 c w o = layout 0 0 w o ||| (BitVec.ofNat 32 c.val <<< 16) := by
  rw [← layout_ctx, layout, layout, layout]
  iterate 5 rw [BitVec.or_append]
  simp

/-- Settles O7: the ten words by computation, the context index by the layout that each expansion's word has. -/
theorem pseudoInstructionEncodings : Obligations.PseudoInstructionEncodings := by
  refine ⟨rfl, fun p c => ?_⟩
  cases p <;> exact layout_eq_or_ctx c _ _

end Sys2Proof
end

section
/-! PROOFS. The assembler gives well-formed commands only (30_encoding R68). -/

namespace Sys2Proof.Asm

theorem inWidth_of_width {max n : Nat} (hmax : 1 ≤ max) {args : List (List Char)} (h : width max args = some n) :
    inWidth max n = true := by
  unfold width at h
  split at h
  case h_1 => cases h; exact inWidth_iff.2 ⟨hmax, le_rfl⟩
  case h_2 =>
    split at h
    case h_1 =>
      split at h
      case isTrue hw => cases h; exact hw
      case isFalse => cases h
    case h_2 => cases h
  case h_3 => cases h

/-- A form gives well-formed commands only. -/
def FormWf (form : List (List Char) → Option Instr) : Prop := ∀ args i, form args = some i → i.wf = true

theorem widthForm_wf {mk : CtxId → Nat → Instr} {max : Nat} (hmax : 1 ≤ max)
    (hmk : ∀ c bits, inWidth max bits = true → (mk c bits).wf = true) : FormWf (widthForm mk max) := by
  intro args i h
  cases args with
  | nil => cases h
  | cons c rest =>
    simp only [widthForm, bind, pure, Option.bind_eq_some_iff] at h
    obtain ⟨k, -, bits, hbits, ⟨⟩⟩ := h
    exact hmk k bits (inWidth_of_width hmax hbits)

theorem contextForm_wf {mk : CtxId → Instr} (hmk : ∀ c, (mk c).wf = true) : FormWf (contextForm mk) := by
  intro args i h
  unfold contextForm at h
  split at h
  case h_1 =>
    obtain ⟨c, -, ⟨⟩⟩ := Option.bind_eq_some_iff.1 h
    exact hmk c
  case h_2 => cases h

theorem initForm_wf : FormWf initForm := by
  intro args i h
  unfold initForm at h
  split at h
  case h_1 =>
    simp only [bind, pure, Option.bind_eq_some_iff] at h
    obtain ⟨c, -, a, -, l, -, ⟨⟩⟩ := h
    rfl
  case h_2 => cases h

theorem peekForm_wf : FormWf peekForm := by
  intro args i h
  unfold peekForm at h
  split at h
  case h_1 =>
    simp only [bind, pure, Option.bind_eq_some_iff] at h
    obtain ⟨d, -, s, -, ⟨⟩⟩ := h
    rfl
  case h_2 => cases h

theorem skipForm_wf : FormWf skipForm := by
  intro args i h
  unfold skipForm at h
  split at h
  case h_1 =>
    simp only [bind, pure, Option.bind_eq_some_iff] at h
    obtain ⟨c, -, n, -, ⟨⟩⟩ := h
    rfl
  case h_2 => cases h

/-- Every mnemonic's form gives well-formed commands only: the mnemonics in their order. -/
theorem forms_wf : ∀ f ∈ forms, FormWf f.2 := by
  simp only [forms, List.forall_mem_cons]
  exact ⟨initForm_wf, contextForm_wf fun _ => rfl, peekForm_wf, skipForm_wf,
    widthForm_wf (by decide) fun _ _ h => h, widthForm_wf (by decide) fun _ _ h => h,
    widthForm_wf (by decide) fun _ _ h => h, widthForm_wf (by decide) fun _ _ h => h,
    contextForm_wf fun _ => rfl, contextForm_wf fun _ => rfl, contextForm_wf fun _ => rfl,
    contextForm_wf fun _ => rfl, contextForm_wf fun _ => rfl, contextForm_wf fun _ => rfl,
    contextForm_wf fun _ => rfl, contextForm_wf fun _ => rfl,
    contextForm_wf fun _ => rfl, contextForm_wf fun _ => rfl, contextForm_wf fun _ => rfl,
    contextForm_wf fun _ => rfl, contextForm_wf fun _ => rfl, contextForm_wf fun _ => rfl, nofun⟩

/-- Settles O8: a command comes from the form of a listed mnemonic, whatever its operands. -/
theorem assemblerRejectsIllegalWidths : Obligations.AssemblerRejectsIllegalWidths := by
  intro line i h
  simp only [assemble] at h
  split at h
  case h_1 f hf => exact forms_wf f (List.mem_of_find?_eq_some hf) _ i h
  case h_2 => cases h

end Sys2Proof.Asm
end

section
/-! PROOFS. Construction: the cursor `INIT` leaves and the buffer behind it (40_construction R80, R81), and the
responses on an owned copy (R82). -/

namespace Sys2Proof.Machine

/-! ## `INIT` on a context that exists, with a length that fits (R80) -/

theorem exec_init_of_fits {s : State} {i : CtxId} {len : Word} (hi : i.val < s.nCtx) (hl : len.toNat < 2 ^ s.cfg.lenW)
    (base : Word) :
    exec (.init i base len) s = .next (((s.logReads (s.initReads (s.baseOf base) len.toNat)).setCtx i
      (s.initContext (s.baseOf base) len.toNat)).deliver ⟨.ok, 0, 0⟩) := by
  obtain ⟨c, hc⟩ := Option.isSome_iff_exists.1 (State.ctx?_isSome_iff.2 hi)
  have hfits : s.lenFits len = true := decide_eq_true hl
  simp [exec, execInit, hc, hfits, State.respond_eq]

section
variable (s : State) (a : Nat) {len : Nat}

theorem State.initContext_of_aliased (h : 8 ≤ len) :
    s.initContext a len = ⟨true, 0, len, len - 8, a, Pad.zero, []⟩ := by
  simp [State.initContext, Config.padBytes, h]

theorem State.initContext_of_owned (h : len < 8) :
    s.initContext a len = ⟨true, 0, len, 0, a, Pad.ofFn (s.padByte a len), []⟩ := by
  simp [State.initContext, Config.padBytes, Nat.not_le.2 h]

theorem State.initReads_of_aliased (h : 8 ≤ len) : s.initReads a len = [] := if_neg (Nat.not_lt.2 h)

theorem State.initReads_of_owned (h : len < 8) :
    s.initReads a len = (List.range len).map fun j => s.addr (a + j) := if_pos h

end

/-- Settles O34: the context constructed for a length of at least 8, and its reads, which are none. -/
theorem initAliases : Obligations.InitAliases := by
  intro s i base len hi h8 hl
  refine ⟨_, exec_init_of_fits hi hl base, rfl, ?_, ?_, s.onlyContext_setCtx _ _ _ _⟩
  · rw [State.deliver_ctx?, State.setCtx_ctx?_self (s := s.logReads _) _ hi, State.initContext_of_aliased _ _ h8]; rfl
  · rw [State.deliver_reads, State.setCtx_reads, State.initReads_of_aliased _ _ h8, State.logReads_nil]

/-! ## The owned copy (R80, 70_reset R186) -/

/-- The base is reduced to the address width first; the address of a byte is the same. -/
theorem State.addr_baseOf_add (s : State) (base : Word) (j : Nat) :
    s.addr (s.baseOf base + j) = s.addr (base.toNat + j) := Nat.mod_add_mod ..

theorem State.memByte_baseOf_add (s : State) (base : Word) (j : Nat) :
    s.memByte (s.baseOf base + j) = s.memByte (base.toNat + j) := by
  rw [State.memByte, State.memByte, s.addr_baseOf_add]

/-- A copied byte is the byte in memory, a free draw where a host write of it is pending. -/
theorem State.padByte_of_lt (s : State) (base : Word) {len j : Nat} (h : j < len) :
    s.padByte (s.baseOf base) len j =
      if s.pending.any (fun w => w.1 == s.addr (base.toNat + j)) then Config.freeByte (s.draws + j)
      else s.memByte (base.toNat + j) := by
  rw [State.padByte, if_pos h, State.readByte, State.disturbed, s.memByte_baseOf_add, s.addr_baseOf_add]; rfl

theorem State.padByte_of_le (s : State) (a : Nat) {len j : Nat} (h : len ≤ j) : s.padByte a len j = 0 :=
  if_neg (Nat.not_lt.2 h)

/-- Settles O35: the context constructed for a length below 8, its `PAD` byte by byte, and its reads. -/
theorem initCopies : Obligations.InitCopies := by
  intro s i base len hi h8 hl
  refine ⟨_, Pad.ofFn (s.padByte (s.baseOf base) len.toNat), exec_init_of_fits hi hl base, rfl, ?_,
    fun j hj => ?_, fun j hj hj8 => ?_, ?_, s.onlyContext_setCtx _ _ _ _⟩
  · rw [State.deliver_ctx?, State.setCtx_ctx?_self (s := s.logReads _) _ hi, State.initContext_of_owned _ _ h8]; rfl
  · rw [Pad.get_ofFn _ (hj.trans h8)]; exact s.padByte_of_lt base hj
  · rw [Pad.get_ofFn _ hj8, State.padByte_of_le _ _ hj]
  · rw [State.deliver_reads, State.setCtx_reads, State.logReads_reads, State.initReads_of_owned _ _ h8]
    simp only [State.addr_baseOf_add]; rfl

/-! ## The physical buffer after construction (R81) -/

theorem State.bufferByte_own (s : State) {c : Context} (h : c.own = true) (j : Nat) :
    s.bufferByte c j = c.pad.get j := if_pos h

theorem State.bufferByte_aliased (s : State) {c : Context} (h : c.own = false) (j : Nat) :
    s.bufferByte c j = s.memByte (c.base + j) := by
  rw [State.bufferByte, h, if_neg Bool.false_ne_true]

/-- Up to the length the buffer is the caller's memory: the copy of it, or the memory itself. -/
theorem State.bufferByte_initContext {s : State} (hp : s.pending = []) (base : Word) {len j : Nat} (hj : j < len) :
    s.bufferByte (s.initContext (s.baseOf base) len) j = s.memByte (base.toNat + j) := by
  by_cases h8 : len < 8
  case pos =>
    rw [State.bufferByte_own _ (Context.own_iff.2 h8), State.initContext_of_owned _ _ h8, Pad.get_ofFn _ (hj.trans h8),
      s.padByte_of_lt base hj, hp, List.any_nil, if_neg Bool.false_ne_true]
  case neg =>
    rw [State.bufferByte_aliased _ (Context.not_own_iff.2 (Nat.not_lt.1 h8))]
    exact s.memByte_baseOf_add base j

/-- Past the length the physical buffer is that of an owned copy, and its `PAD` is 0 there. -/
theorem State.bufferByte_past_lsize (s : State) {c : Context} (hc : c.cursorOk) {j : Nat} (hj : c.lsize ≤ j)
    (hplen : j < c.plen) : s.bufferByte c j = 0 := by
  obtain ⟨hlimit, hpad⟩ := hc
  rw [Context.plen_eq] at hplen
  rw [State.bufferByte_own s (Context.own_iff.2 (by omega))]
  exact hpad j (by omega) (.inr hj)

/-- Settles O36: the context held is the constructed one, which is a cursor, and memory is the same. -/
theorem initBufferContents : Obligations.InitBufferContents := by
  intro s t i base len hi hl hp he
  cases (exec_init_of_fits hi hl base).symm.trans he
  have hok := s.initContext_cursorOk (s.baseOf base) len.toNat
  exact ⟨_, ⟨State.setCtx_ctx?_self (s := s.logReads _) _ hi, rfl⟩, hok.plen_eq_max,
    fun j hj => State.bufferByte_initContext hp base hj, fun j hj hplen => State.bufferByte_past_lsize _ hok hj hplen⟩

/-! ## The values of reads, from two states that give a buffer the same bytes -/

/-- The physical buffer of `c` reads the same in `s` and in `u`, whatever the draw numbers. -/
def Context.ReadsAlike (c : Context) (s u : State) : Prop :=
  ∀ j, j < c.plen → ∀ d e, s.physByte c j d = u.physByte c j e

/-- An owned buffer is its `PAD`, in every state (10_state R35). -/
theorem Context.readsAlike_of_own {c : Context} (h : c.own = true) (s u : State) : c.ReadsAlike s u :=
  fun _ _ _ _ => (if_pos h).trans (if_pos h).symm

section
variable {s u : State} {c : Context} (h : c.ReadsAlike s u)
include h

theorem Context.ReadsAlike.load64BE {off : Nat} (ho : off ≤ c.limit) : s.load64BE c off = u.load64BE c off := by
  have hbyte : ∀ k, k < 8 → s.physByte c (off + k) (s.draws + k) = u.physByte c (off + k) (u.draws + k) :=
    fun k hk => h _ (by rw [Context.plen_eq]; omega) _ _
  simp only [State.load64BE, hbyte, Nat.reduceLT]

theorem Context.ReadsAlike.extract_value (bits : Nat) (signed : Bool) :
    (extract s c bits signed).value = (extract u c bits signed).value := by
  simp only [extract, h.load64BE c.wordOffset_le_limit]

/-- Both windows of a wide read, the second one from the advanced position and after the reads of the first. -/
theorem Context.ReadsAlike.u64_value (bits : Nat) : (u64 s c bits).value = (u64 u c bits).value := by
  by_cases hb : bits ≤ 32
  case pos => rw [u64_narrow s c hb, u64_narrow u c hb, h.extract_value]
  case neg =>
    have hlo : (c.advance (bits - 32)).ReadsAlike (extract s c (bits - 32) false).st
        (extract u c (bits - 32) false).st := h
    rw [u64_wide_value s c (by omega), u64_wide_value u c (by omega), h.extract_value, hlo.extract_value]

end

/-! ## Commands that answer alike -/

/-- `r` from `s` and `q` from `u` are next states that add the same response and hold the same in context `i`. -/
def AnswersAlike (s u : State) (i : CtxId) (r q : Result) : Prop :=
  ∃ s' u' a, r = .next s' ∧ q = .next u' ∧ s'.responses = s.responses ++ [a] ∧
    u'.responses = u.responses ++ [a] ∧ s'.ctx? i = u'.ctx? i

section
variable {s u : State} {i : CtxId} {c : Context} (hs : s.Holds i c) (hu : u.Holds i c)
include hs hu

theorem answersAlike_deliver (a : Response) : AnswersAlike s u i (.next (s.deliver a)) (.next (u.deliver a)) :=
  ⟨_, _, a, rfl, rfl, rfl, rfl, hs.1.trans hu.1.symm⟩

theorem answersAlike_setCtx (c' : Context) (a : Response) :
    AnswersAlike s u i (.next ((s.setCtx i c').deliver a)) (.next ((u.setCtx i c').deliver a)) :=
  ⟨_, _, a, rfl, rfl, rfl, rfl, (State.setCtx_ctx?_self c' (State.lt_of_ctx? hs.1)).trans
    (State.setCtx_ctx?_self c' (State.lt_of_ctx? hu.1)).symm⟩

theorem answersAlike_withCursor {k l : Context → Result} (h : AnswersAlike s u i (k c) (l c)) :
    AnswersAlike s u i (s.withCursor i k) (u.withCursor i l) := by
  rwa [State.withCursor_holds hs, State.withCursor_holds hu]

theorem answersAlike_withWidth {max bits : Nat} {k l : Context → Result} (h : AnswersAlike s u i (k c) (l c)) :
    AnswersAlike s u i (s.withWidth max bits i k) (u.withWidth max bits i l) := by
  cases hw : inWidth max bits with
  | false => rw [State.withWidth_illegal hw, State.withWidth_illegal hw]; exact answersAlike_deliver hs hu _
  | true => rw [State.withWidth_legal hw, State.withWidth_legal hw]; exact answersAlike_withCursor hs hu h

/-- A read of up to 32 bits, whatever it makes of the value extracted. -/
theorem answersAlike_extract (h : c.ReadsAlike s u) (bits : Nat) (signed : Bool) (f : Word → Word) :
    AnswersAlike s u i ((extract s c bits signed).finish i (f (extract s c bits signed).value))
      ((extract u c bits signed).finish i (f (extract u c bits signed).value)) := by
  rw [h.extract_value]; exact answersAlike_setCtx (s := s.logReads _) (u := u.logReads _) hs hu _ _

theorem answersAlike_u64 (h : c.ReadsAlike s u) (bits : Nat) (f : Word → Word) :
    AnswersAlike s u i ((u64 s c bits).finish i (f (u64 s c bits).value))
      ((u64 u c bits).finish i (f (u64 u c bits).value)) := by
  rw [h.u64_value, u64_finish, u64_finish]; exact answersAlike_setCtx (s := s.logReads _) (u := u.logReads _) hs hu _ _

end

/-- A command other than `INIT` and `PEEK` depends on nothing but its cursor and the bytes of that cursor's buffer. -/
theorem exec_answersAlike {i : Instr} {s u : State} {c : Context} (hs : s.Holds (target i) c)
    (hu : u.Holds (target i) c) (h : c.ReadsAlike s u) (hinit : ∀ k base len, i ≠ .init k base len)
    (hpeek : ∀ d q, i ≠ .peek d q) : AnswersAlike s u (target i) (exec i s) (exec i u) := by
  cases i with
  | init k base len => exact absurd rfl (hinit k base len)
  | peek d q => exact absurd rfl (hpeek d q)
  | reset | skip => exact answersAlike_withCursor hs hu (answersAlike_setCtx hs hu _ _)
  | pos | rembits | rembytes | check => exact answersAlike_withCursor hs hu (answersAlike_deliver hs hu _)
  | rdu32 _ bits => exact answersAlike_withWidth hs hu (answersAlike_extract hs hu h bits false (zext64 32))
  | rds32 _ bits => exact answersAlike_withWidth hs hu (answersAlike_extract hs hu h bits true (sext64 32))
  | rdu64 _ bits => exact answersAlike_withWidth hs hu (answersAlike_u64 hs hu h bits id)
  | rds64 _ bits => exact answersAlike_withWidth hs hu (answersAlike_u64 hs hu h bits (extend · bits))
  | rdbit => exact answersAlike_withCursor hs hu (answersAlike_extract hs hu h 1 false id)
  | rdle16 =>
    exact answersAlike_withCursor hs hu
      (answersAlike_extract hs hu h 16 false fun v => (bswap16 (v.setWidth 16)).setWidth 64)
  | rdle32 =>
    exact answersAlike_withCursor hs hu
      (answersAlike_extract hs hu h 32 false fun v => (bswap32 (v.setWidth 32)).setWidth 64)
  | rdle64 => exact answersAlike_withCursor hs hu (answersAlike_u64 hs hu h 64 bswap64)

/-! ## An owned context is a snapshot (R82) -/

/-- On an owned cursor no command but `INIT` reads memory. -/
theorem Effect.reads_of_own {i : Instr} {s t : State} {c : Context} (h : Effect i s t) (hc : s.Holds (target i) c)
    (ho : c.own = true) (hinit : ∀ k base len, i ≠ .init k base len) : t.reads = s.reads := by
  rcases h.reads_cases hinit with hnone | ⟨d, _, hd, hmade⟩
  · exact hnone
  · cases hd.unique hc
    rw [hmade, readsOf_own s ho, List.append_nil]

/-- Settles O37: an owned buffer has the same bytes in both states, and no window of it is read from memory. -/
theorem ownedReadsIgnoreMemory : Obligations.OwnedReadsIgnoreMemory := by
  intro i s u c ho hs hu hinit hpeek
  obtain ⟨s', u', r, hes, heu, hrs, hru, _⟩ :=
    exec_answersAlike hs hu (Context.readsAlike_of_own ho s u) hinit hpeek
  exact ⟨s', u', r, hes, heu, hrs, hru, (exec_effect hes).reads_of_own hs ho hinit,
    (exec_effect heu).reads_of_own hu ho hinit⟩

end Sys2Proof.Machine
end

section
/-! PROOFS. The big-endian reads: the datapath in every state, how the reads agree with one another, and the logical
bits they return (41_extraction R91 to R99). -/

namespace Sys2Proof.Machine

/-- Settles O29: the transform's law on the values that fit in `w` bits. -/
theorem extendIsSignExtension : Obligations.ExtendIsSignExtension :=
  fun _ _ h1 h2 hv => extend_eq_signExtend h1 h2 hv

/-! ## Each read as its extraction -/

section
variable {bits : Nat} (h1 : 1 ≤ bits)
include h1

theorem State.withWidth_w32 (h2 : bits ≤ 32) (s : State) (i : CtxId) (k : Context → Result) :
    s.withWidth Config.maxW32 bits i k = s.withCursor i k :=
  State.withWidth_legal (inWidth_iff.2 ⟨h1, h2⟩) i k

theorem State.withWidth_w64 (h2 : bits ≤ 64) (s : State) (i : CtxId) (k : Context → Result) :
    s.withWidth Config.maxW64 bits i k = s.withCursor i k :=
  State.withWidth_legal (inWidth_iff.2 ⟨h1, h2⟩) i k

end

/-- Settles O44: one window, and the two right shifts of the same shifted window. -/
theorem extractDatapath : Obligations.ExtractDatapath := by
  intro s i c bits hc h1 h2
  exact ⟨(State.withWidth_w32 h1 h2 s i _).trans (State.withCursor_holds hc _),
    (State.withWidth_w32 h1 h2 s i _).trans (State.withCursor_holds hc _)⟩

/-! ## The signed reads and the unsigned ones (R95, R96, R99) -/

/-- Taking the `n` high bits of a word arithmetically is taking them logically and then extending their sign. -/
theorem sra64_eq_signExtend_srl64 {n : Nat} (h1 : 1 ≤ n) (h2 : n ≤ 64) (x : Word) :
    sra64 x (64 - n) = ((srl64 x (64 - n)).setWidth n).signExtend 64 := by
  have hmsb : ((srl64 x (64 - n)).setWidth n).msb = x.msb := by
    rw [BitVec.msb_setWidth, decide_eq_true (show 0 < n from h1), Bool.true_and, srl64, if_pos (by omega),
      BitVec.getLsbD_ushiftRight, BitVec.msb_eq_getLsbD_last]
    congr 1; omega
  refine BitVec.eq_of_getLsbD_eq fun i hi => ?_
  rw [BitVec.getLsbD_signExtend, hmsb, sra64, if_pos (by omega), BitVec.getLsbD_sshiftRight,
    decide_eq_false (Nat.not_le.2 hi), decide_eq_true hi]
  by_cases hin : i < n
  case pos =>
    rw [if_pos hin, if_pos (by omega), BitVec.getLsbD_setWidth, decide_eq_true hin, srl64, if_pos (by omega),
      BitVec.getLsbD_ushiftRight]
    rfl
  case neg => rw [if_neg hin, if_neg (by omega)]; rfl

section
variable (s : State) (c : Context) {bits : Nat} (h1 : 1 ≤ bits) (h2 : bits ≤ 32)
include h1 h2

/-- The signed extraction is `Extend` of the unsigned one, disturbed bytes included (R95). -/
theorem extract_signed_eq_extend :
    (extract s c bits true).value = extend (extract s c bits false).value bits := by
  have h64 : bits ≤ 64 := h2.trans (by decide)
  rw [extend_eq_signExtend h1 h64 (extract_unsigned_lt s c h1 h64)]
  exact sra64_eq_signExtend_srl64 h1 h64 _

/-- An unsigned value of up to 32 bits is its own zero extension from 32 bits. -/
theorem zext64_extract_unsigned :
    zext64 32 (extract s c bits false).value = (extract s c bits false).value := by
  have hlt : (extract s c bits false).value.toNat < 2 ^ 32 :=
    lt_of_lt_of_le (extract_unsigned_lt s c h1 (h2.trans (by decide))) (Nat.pow_le_pow_right Nat.two_pos h2)
  apply BitVec.eq_of_toNat_eq
  rw [zext64, BitVec.toNat_setWidth, BitVec.toNat_setWidth, Nat.mod_eq_of_lt hlt, Nat.mod_eq_of_lt (by omega)]

/-- A signed value of up to 32 bits is its own sign extension from 32 bits. -/
theorem sext64_extract_signed :
    sext64 32 (extract s c bits true).value = (extract s c bits true).value :=
  (eq_signExtend_mono h1 h2 (by decide) (extract_signed s c h1 (h2.trans (by decide)))).symm

end

section
variable {bits : Nat} (h1 : 1 ≤ bits)
include h1

theorem exec_rdu32_eq (h2 : bits ≤ 32) (i : CtxId) (s : State) :
    exec (.rdu32 i bits) s =
      s.withCursor i fun c => (extract s c bits false).finish i (extract s c bits false).value := by
  refine (State.withWidth_w32 h1 h2 s i _).trans (congrArg (s.withCursor i) (funext fun c => ?_))
  exact congrArg ((extract s c bits false).finish i) (zext64_extract_unsigned s c h1 h2)

theorem exec_rds32_eq (h2 : bits ≤ 32) (i : CtxId) (s : State) :
    exec (.rds32 i bits) s =
      s.withCursor i fun c => (extract s c bits true).finish i (extract s c bits true).value := by
  refine (State.withWidth_w32 h1 h2 s i _).trans (congrArg (s.withCursor i) (funext fun c => ?_))
  exact congrArg ((extract s c bits true).finish i) (sext64_extract_signed s c h1 h2)

theorem exec_rdu64_eq (h2 : bits ≤ 64) (i : CtxId) (s : State) :
    exec (.rdu64 i bits) s = s.withCursor i fun c => (u64 s c bits).finish i (u64 s c bits).value :=
  State.withWidth_w64 h1 h2 s i _

theorem exec_rds64_eq (h2 : bits ≤ 64) (i : CtxId) (s : State) :
    exec (.rds64 i bits) s = s.withCursor i fun c => (u64 s c bits).finish i (extend (u64 s c bits).value bits) :=
  State.withWidth_w64 h1 h2 s i _

end

theorem exec_rdbit_eq (i : CtxId) (s : State) :
    exec (.rdbit i) s = s.withCursor i fun c => (extract s c 1 false).finish i (extract s c 1 false).value := rfl

/-- Settles O46: up to 32 bits `U64` is one extraction, and one bit is an extraction of width 1. -/
theorem narrowReadsAgree : Obligations.NarrowReadsAgree := by
  refine ⟨fun s i bits h1 h2 => ?_, fun s i => ?_⟩
  · rw [exec_rdu64_eq h1 (h2.trans (by decide)), exec_rdu32_eq h1 h2]
    simp only [u64_narrow s _ h2]
  · rw [exec_rdbit_eq, exec_rdu32_eq le_rfl (by decide)]

/-- Settles O45: both signed reads answer `Extend` of the unsigned extraction, and make its reads and its advance. -/
theorem rds32EqualsRds64 : Obligations.Rds32EqualsRds64 := by
  refine ⟨fun s i bits h1 h2 => ?_, fun s i c bits hc h1 h2 => ?_⟩
  · rw [exec_rds32_eq h1 h2, exec_rds64_eq h1 (h2.trans (by decide))]
    simp only [u64_narrow s _ h2, extract_finish s _ h2, extract_signed_eq_extend s _ h1 h2]
  · refine ⟨(s.logReads (readsOf s c bits)).setCtx i (c.advance bits), (extract s c bits false).value, ?_, ?_⟩
    · rw [exec_rdu32_eq h1 h2, State.withCursor_holds hc, extract_finish s c h2]
    · rw [exec_rds32_eq h1 h2, State.withCursor_holds hc, extract_finish s c h2, extract_signed_eq_extend s c h1 h2]

/-! ## The logical bits (R93) -/

/-- What a read that answers `d` leaves: the response, the advanced cursor, its reads, and the frame. -/
theorem read_outcome {s : State} {i : CtxId} {c : Context} (hc : s.Holds i c) {bits : Nat} {d : Word} {r : Result}
    (hr : r = .next (((s.logReads (readsOf s c bits)).setCtx i (c.advance bits)).deliver ⟨.ok, d, 0⟩)) :
    ∃ t, r = .next t ∧ t.responses = s.responses ++ [⟨.ok, d, 0⟩] ∧
      t.ctx? i = some { c with pos := adv c.pos bits } ∧ t.reads = s.reads ++ readsOf s c bits ∧ s.OnlyContext t i :=
  ⟨_, hr, rfl, State.setCtx_ctx?_self (s := s.logReads _) _ (State.lt_of_ctx? hc.1), rfl,
    s.onlyContext_setCtx _ _ _ _⟩

/-- Settles O39: the unsigned extraction returns the logical bits. -/
theorem rdu32ReadsLogicalBits : Obligations.Rdu32ReadsLogicalBits := by
  intro s i c bits h hc hu h1 h2
  refine read_outcome hc ?_
  rw [exec_rdu32_eq h1 h2, State.withCursor_holds hc, extract_finish s c h2,
    extract_unsigned_value (h.cursorOk_of_holds hc) hu h1 h2]

/-- Settles O40: the signed extraction returns the logical bits, sign-extended. -/
theorem rds32ReadsSignedBits : Obligations.Rds32ReadsSignedBits := by
  intro s i c bits h hc hu h1 h2
  refine read_outcome hc ?_
  rw [exec_rds32_eq h1 h2, State.withCursor_holds hc, extract_finish s c h2,
    extract_signed_value (h.cursorOk_of_holds hc) hu h1 h2]

/-- The value of a 64-bit read in a legal state, whose logical end lies below the saturated position. -/
theorem State.Inv.u64_value {s : State} {i : CtxId} {c : Context} (h : s.Inv) (hc : s.Holds i c)
    (hu : s.Undisturbed c) {bits : Nat} (h1 : 1 ≤ bits) (h2 : bits ≤ 64) :
    (u64 s c bits).value = BitVec.ofNat 64 (s.streamValue c c.pos.toNat bits) :=
  Machine.u64_value (h.cursorOk_of_holds hc) hu ((h.lbits_lt hc.1).trans (by decide)) h1 h2

/-- Settles O41: `U64` returns the logical bits, through one window or two. -/
theorem rdu64ReadsLogicalBits : Obligations.Rdu64ReadsLogicalBits := by
  intro s i c bits h hc hu h1 h2
  refine read_outcome hc ?_
  rw [exec_rdu64_eq h1 h2, State.withCursor_holds hc, u64_finish, h.u64_value hc hu h1 h2]

/-- Settles O42: the extend transform extends the sign of the logical bits that `U64` returns. -/
theorem rds64ReadsSignedBits : Obligations.Rds64ReadsSignedBits := by
  intro s i c bits h hc hu h1 h2
  refine read_outcome hc ?_
  rw [exec_rds64_eq h1 h2, State.withCursor_holds hc, u64_finish, extend_eq_signExtend h1 h2 (u64_lt s c h1 h2),
    h.u64_value hc hu h1 h2, BitVec.setWidth_ofNat_of_le h2]

/-- One logical bit as a number. -/
theorem State.streamValue_one (s : State) (c : Context) (p : Nat) :
    s.streamValue c p 1 = (s.logicalBit c p).toNat := by
  simp [State.streamValue]

/-- Settles O43: the extraction of width 1 returns the sum of R93 with one term. -/
theorem rdbitReadsOneBit : Obligations.RdbitReadsOneBit := by
  intro s i c h hc hu
  refine read_outcome hc ?_
  rw [exec_rdbit_eq, State.withCursor_holds hc, extract_finish s c (by decide),
    extract_unsigned_value (h.cursorOk_of_holds hc) hu le_rfl (by decide), State.streamValue_one]
  cases s.logicalBit c c.pos.toNat <;> rfl

end Sys2Proof.Machine
end

section
/-! PROOFS. The byte-swap network and the little-endian reads (42_endianness R120 to R124). -/

namespace Sys2Proof.Machine

/-! ## Reversing the bytes of a word (R120) -/

/-- `f` reverses the order of the `m` bytes of its argument (R120). -/
structure ReversesBytes {n : Nat} (m : Nat) (f : BitVec n → BitVec n) : Prop where
  width : n = 8 * m
  byte : ∀ v k, k < m → (f v).extractLsb' (8 * k) 8 = v.extractLsb' (8 * (m - 1 - k)) 8

/-- One byte is its own reversal. -/
theorem reversesBytes_id : ReversesBytes 1 (id : Byte → Byte) := ⟨rfl, fun _ k hk => by
  obtain rfl := Nat.lt_one_iff.1 hk; rfl⟩

/-- A byte of a half of a word is a byte of the word. -/
theorem extractLsb'_of_half {n : Nat} (v : BitVec (n + n)) {m h k : Nat} (hn : n = 8 * m) (hk : k < m) :
    (v.extractLsb' h n).extractLsb' (8 * k) 8 = v.extractLsb' (h + 8 * k) 8 := by
  refine BitVec.eq_of_getLsbD_eq fun i hi => ?_
  rw [BitVec.getLsbD_extractLsb', BitVec.getLsbD_extractLsb', BitVec.getLsbD_extractLsb',
    decide_eq_true (show 8 * k + i < n by omega), Bool.true_and, Nat.add_assoc]

/-- Swap the halves and reverse each: the step by which R120 builds a network from the one of half its width. -/
theorem ReversesBytes.swapHalves {n m : Nat} {f : BitVec n → BitVec n} (hf : ReversesBytes m f) :
    ReversesBytes (m + m) fun v : BitVec (n + n) => f (v.extractLsb' 0 n) ++ f (v.extractLsb' n n) where
  width := by have := hf.width; omega
  byte v k hk := by
    have hn := hf.width
    by_cases hlow : k < m
    · rw [BitVec.extractLsb'_append_eq_of_add_le (by omega), hf.byte _ k hlow, extractLsb'_of_half v hn (by omega)]
      congr 1; omega
    · rw [BitVec.extractLsb'_append_eq_of_le (by omega), show 8 * k - n = 8 * (k - m) by omega,
        hf.byte _ (k - m) (by omega), extractLsb'_of_half v hn (by omega)]
      congr 1; omega

theorem bswap16_reversesBytes : ReversesBytes 2 bswap16 := reversesBytes_id.swapHalves

theorem bswap32_reversesBytes : ReversesBytes 4 bswap32 := bswap16_reversesBytes.swapHalves

theorem bswap64_reversesBytes : ReversesBytes 8 bswap64 := bswap32_reversesBytes.swapHalves

/-- Words of whole bytes are equal when their bytes are. -/
theorem eq_of_bytes_eq {n m : Nat} (hn : n = 8 * m) {v w : BitVec n}
    (h : ∀ k, k < m → v.extractLsb' (8 * k) 8 = w.extractLsb' (8 * k) 8) : v = w := by
  refine BitVec.eq_of_getLsbD_eq fun i hi => ?_
  have hbit := congrArg (BitVec.getLsbD · (i % 8)) (h (i / 8) (by omega))
  simpa only [BitVec.getLsbD_extractLsb', Nat.div_add_mod, decide_eq_true (Nat.mod_lt i (by decide : 8 > 0)),
    Bool.true_and] using hbit

theorem ReversesBytes.involutive {n m : Nat} {f : BitVec n → BitVec n} (hf : ReversesBytes m f) (v : BitVec n) :
    f (f v) = v :=
  eq_of_bytes_eq hf.width fun k hk => by
    rw [hf.byte _ k hk, hf.byte _ (m - 1 - k) (by omega), show m - 1 - (m - 1 - k) = k by omega]

/-- Settles O30: each network swaps the halves of its word and reverses each half. -/
theorem byteSwapReverses : Obligations.ByteSwapReverses :=
  ⟨bswap16_reversesBytes.byte, bswap32_reversesBytes.byte, bswap64_reversesBytes.byte,
    bswap16_reversesBytes.involutive, bswap32_reversesBytes.involutive, bswap64_reversesBytes.involutive⟩

/-! ## The little-endian reads (R121 to R123) -/

section
variable {s : State} {i : CtxId} {c : Context} (hc : s.Holds i c)
include hc

theorem exec_rdle16_holds : exec (.rdle16 i) s =
    .next (((s.logReads (readsOf s c 16)).setCtx i (c.advance 16)).deliver
      ⟨.ok, (bswap16 ((extract s c 16 false).value.setWidth 16)).setWidth 64, 0⟩) :=
  (State.withCursor_holds hc _).trans (extract_finish s c (by decide) false i _)

theorem exec_rdle32_holds : exec (.rdle32 i) s =
    .next (((s.logReads (readsOf s c 32)).setCtx i (c.advance 32)).deliver
      ⟨.ok, (bswap32 ((extract s c 32 false).value.setWidth 32)).setWidth 64, 0⟩) :=
  (State.withCursor_holds hc _).trans (extract_finish s c (by decide) false i _)

theorem exec_rdle64_holds : exec (.rdle64 i) s =
    .next (((s.logReads (readsOf s c 64)).setCtx i (c.advance 64)).deliver ⟨.ok, bswap64 (u64 s c 64).value, 0⟩) :=
  (State.withCursor_holds hc _).trans (u64_finish s c 64 i _)

theorem exec_rdu32_holds {bits : Nat} (h1 : 1 ≤ bits) (h2 : bits ≤ 32) : exec (.rdu32 i bits) s =
    .next (((s.logReads (readsOf s c bits)).setCtx i (c.advance bits)).deliver
      ⟨.ok, (extract s c bits false).value, 0⟩) := by
  rw [exec_rdu32_eq h1 h2, State.withCursor_holds hc, extract_finish s c h2]

theorem exec_rdu64_holds {bits : Nat} (h1 : 1 ≤ bits) (h2 : bits ≤ 64) : exec (.rdu64 i bits) s =
    .next (((s.logReads (readsOf s c bits)).setCtx i (c.advance bits)).deliver ⟨.ok, (u64 s c bits).value, 0⟩) := by
  rw [exec_rdu64_eq h1 h2, State.withCursor_holds hc, u64_finish]

end

/-- Settles O47: the swapped value is the extraction of the logical bits (R93). -/
theorem littleEndianReadsSwapBits : Obligations.LittleEndianReadsSwapBits := by
  intro s i c h hc hu
  have hcur := h.cursorOk_of_holds hc
  refine ⟨read_outcome hc ?_, read_outcome hc ?_, read_outcome hc ?_⟩
  · rw [exec_rdle16_holds hc, extract_unsigned_value hcur hu (by decide) (by decide),
      BitVec.setWidth_ofNat_of_le (by decide)]
  · rw [exec_rdle32_holds hc, extract_unsigned_value hcur hu (by decide) (by decide),
      BitVec.setWidth_ofNat_of_le (by decide)]
  · rw [exec_rdle64_holds hc, h.u64_value hc hu (by decide) (by decide)]

/-- Settles O48: both reads of a width make the same extraction, reads and advance. -/
theorem littleEndianIsSwapOfBigEndian : Obligations.LittleEndianIsSwapOfBigEndian := fun _ _ _ hc =>
  ⟨⟨_, _, exec_rdu32_holds hc (by decide) (by decide), exec_rdle16_holds hc⟩,
    ⟨_, _, exec_rdu32_holds hc (by decide) (by decide), exec_rdle32_holds hc⟩,
    ⟨_, _, exec_rdu64_holds hc (by decide) (by decide), exec_rdle64_holds hc⟩⟩

/-! ## Aligned reads inside the buffer (R124) -/

/-- The `m` low bytes of a number, each at its place, add up to its remainder by `256 ^ m`. -/
theorem sum_bytes_eq_mod (x m : Nat) : ∑ k ∈ Finset.range m, x / 256 ^ k % 256 * 256 ^ k = x % 256 ^ m := by
  induction m with
  | zero => simp [Nat.mod_one]
  | succ m ih => rw [Finset.sum_range_succ, ih, Nat.mod_pow_succ, Nat.mul_comm]

/-- A word of `m` bytes is the little-endian integer of its bytes. -/
theorem toNat_eq_sum_bytes {n m : Nat} (hn : n = 8 * m) (v : BitVec n) :
    v.toNat = ∑ k ∈ Finset.range m, (v.extractLsb' (8 * k) 8).toNat * 256 ^ k := by
  have hlt : v.toNat < 256 ^ m := v.isLt.trans_eq (by rw [hn, Nat.pow_mul])
  rw [← Nat.mod_eq_of_lt hlt, ← sum_bytes_eq_mod]
  refine Finset.sum_congr rfl fun k _ => ?_
  rw [BitVec.extractLsb'_toNat, Nat.shiftRight_eq_div_pow, Nat.pow_mul]

section
variable (s : State) {c : Context} {p n m : Nat} (hn : n = 8 * m) (hp : p % 8 = 0) (hin : p + n ≤ c.lbits)
include hn hp hin

/-- From an aligned position the logical bits are whole bytes of the buffer, the first one most significant. -/
theorem State.extractLsb'_streamValue {k : Nat} (hk : k < m) :
    (BitVec.ofNat n (s.streamValue c p n)).extractLsb' (8 * (m - 1 - k)) 8 = s.bufferByte c (p / 8 + k) := by
  refine BitVec.eq_of_getLsbD_eq fun r hr => ?_
  have hplace : p + (n - 1 - (8 * (m - 1 - k) + r)) = 8 * (p / 8 + k) + (7 - r) := by omega
  rw [BitVec.getLsbD_extractLsb', BitVec.getLsbD_ofNat, State.streamValue_testBit, hplace, State.logicalBit,
    if_pos (by omega), State.bufferBit, decide_eq_true hr, decide_eq_true (show 8 * (m - 1 - k) + r < n by omega),
    show (8 * (p / 8 + k) + (7 - r)) / 8 = p / 8 + k by omega,
    show 7 - (8 * (p / 8 + k) + (7 - r)) % 8 = r by omega]
  rfl

/-- Reversing the bytes of those logical bits gives the little-endian integer of the same bytes. -/
theorem ReversesBytes.setWidth_streamValue {f : BitVec n → BitVec n} (hf : ReversesBytes m f) :
    (f (BitVec.ofNat n (s.streamValue c p n))).setWidth 64 =
      BitVec.ofNat 64 (∑ k ∈ Finset.range m, (s.bufferByte c (p / 8 + k)).toNat * 256 ^ k) := by
  rw [← BitVec.ofNat_toNat, toNat_eq_sum_bytes hn]
  refine congrArg (BitVec.ofNat 64) (Finset.sum_congr rfl fun k hk => ?_)
  have hkm := Finset.mem_range.1 hk
  rw [hf.byte _ k hkm, s.extractLsb'_streamValue hn hp hin hkm]

end

/-- Settles O49: the byte-swap of the logical bits reverses the big-endian order of the bytes. -/
theorem littleEndianReadsAlignedInteger : Obligations.LittleEndianReadsAlignedInteger := by
  intro s i c h hc hu hp value
  obtain ⟨⟨t16, he16, hr16, -⟩, ⟨t32, he32, hr32, -⟩, ⟨t64, he64, hr64, -⟩⟩ :=
    littleEndianReadsSwapBits s i c h hc hu
  refine ⟨fun hin => ⟨t16, he16, ?_⟩, fun hin => ⟨t32, he32, ?_⟩, fun hin => ⟨t64, he64, ?_⟩⟩
  · rw [hr16, bswap16_reversesBytes.setWidth_streamValue s rfl hp hin]
  · rw [hr32, bswap32_reversesBytes.setWidth_streamValue s rfl hp hin]
  · rw [hr64, ← BitVec.setWidth_eq (bswap64 _), bswap64_reversesBytes.setWidth_streamValue s rfl hp hin]

end Sys2Proof.Machine
end

section
/-! PROOFS. Position, peek, reset, tail and check: what these commands answer and leave (43_position R130 to R140). -/

namespace Sys2Proof.Machine

/-! ## The frame of every command (R135) -/

theorem State.onlyContext_deliver (s : State) (i : CtxId) (r : Response) : s.OnlyContext (s.deliver r) i :=
  ⟨⟨rfl, rfl, rfl, rfl, fun _ => rfl, rfl⟩, fun _ _ => rfl⟩

theorem State.onlyContext_setCtx_deliver (s : State) (i : CtxId) (c : Context) (r : Response) :
    s.OnlyContext ((s.setCtx i c).deliver r) i := by
  have h := s.onlyContext_setCtx [] i c r
  rwa [State.logReads_nil] at h

theorem Effect.onlyContext {i : Instr} {s t : State} (h : Effect i s t) : s.OnlyContext t (target i) := by
  cases h with
  | error | query => exact s.onlyContext_deliver _ _
  | skip | rewind | copy => exact s.onlyContext_setCtx_deliver _ _ _
  | read | construct => exact s.onlyContext_setCtx _ _ _ _

/-- Settles O56: each effect a command can have writes at most the context it addresses. -/
theorem onlyTargetContextChanges : Obligations.OnlyTargetContextChanges :=
  fun _ _ _ he => (exec_effect he).onlyContext

/-! ## `SKIP`, `RESET` and `PEEK` write one context (R130, R134, R136) -/

/-- What a command that writes `c` to context `i` and responds 0, 0 leaves. -/
theorem write_outcome {s : State} {i : CtxId} (hi : i.val < s.nCtx) {c : Context} {r : Result}
    (hr : r = (s.setCtx i c).respond 0 0) :
    ∃ t, r = .next t ∧ t.responses = s.responses ++ [⟨.ok, 0, 0⟩] ∧ t.ctx? i = some c ∧ t.reads = s.reads ∧
      s.OnlyContext t i :=
  ⟨_, hr, rfl, State.setCtx_ctx?_self c hi, rfl, s.onlyContext_setCtx_deliver i c _⟩

theorem exec_peek_of_holds {s : State} {d q : CtxId} {c : Context} (hd : d.val < s.nCtx) (hc : s.Holds q c) :
    exec (.peek d q) s = (s.setCtx d c).respond 0 0 := by
  obtain ⟨old, hold⟩ := Option.isSome_iff_exists.1 (State.ctx?_isSome_iff.2 hd)
  rw [exec, execPeek, hold]
  exact State.withCursor_holds hc _

/-- Settles O50: on a cursor `SKIP` writes the advanced context. -/
theorem skipAdvances : Obligations.SkipAdvances :=
  fun _ _ _ _ hc => write_outcome (State.lt_of_ctx? hc.1) (State.withCursor_holds hc _)

/-- Settles O54: on a cursor `RESET` writes the rewound context. -/
theorem resetRewinds : Obligations.ResetRewinds :=
  fun _ _ _ hc => write_outcome (State.lt_of_ctx? hc.1) (State.withCursor_holds hc _)

/-- Settles O53: the source's cursor is what `PEEK` writes to the destination. -/
theorem peekCopiesContext : Obligations.PeekCopiesContext :=
  fun _ _ _ _ hd hc => write_outcome hd (exec_peek_of_holds hd hc)

/-! ## `POS`, `REMBITS` and `CHECK` (R131 to R133, R139) -/

theorem Context.remBits_le_lbits (c : Context) : c.remBits ≤ c.lbits := Nat.sub_le _ _

theorem Context.remBits_add_min (c : Context) : c.remBits + min c.pos.toNat c.lbits = c.lbits :=
  Nat.sub_add_cancel (Nat.min_le_right _ _)

/-- Settles O51: the bits left fit the response bus, because the logical size does. -/
theorem queriesAnswerAndChangeNothing : Obligations.QueriesAnswerAndChangeNothing := by
  intro s i c h hc
  refine ⟨State.withCursor_holds hc _, ⟨BitVec.ofNat 64 c.remBits, ?_, State.withCursor_holds hc _⟩, ?_⟩
  · have hle := c.remBits_le_lbits
    have hlt := h.lbits_lt hc.1
    exact (BitVec.toNat_ofNat _ _).trans (Nat.mod_eq_of_lt (by omega))
  · rw [← if_congr Context.ovf_iff rfl rfl]
    exact State.withCursor_holds hc _

/-- Settles O55: the cursor goes on with the same logical size, and the bits left are what the position leaves of it. -/
theorem rembitsDecrease : Obligations.RembitsDecrease := by
  intro i s t c hc hinit hpeek he
  obtain ⟨c', hc', hsame, _⟩ := (exec_effect he).target_continues hc (hinit _) (hpeek _)
  have hlbits : c'.lbits = c.lbits := by rw [hsame]; rfl
  have hrem := c.remBits_add_min
  have hrem' := c'.remBits_add_min
  rw [hlbits] at hrem'
  exact ⟨c', hc', hlbits, c'.remBits_le_lbits, by omega, by omega, by omega⟩

/-! ## `REMBYTES` (R137) -/

theorem Context.tail_of_past {c : Context} (h : c.lsize ≤ c.pos.toNat / 8) : c.tail = (0, 0) := if_pos h

theorem Context.tail_of_inside {c : Context} (h : c.pos.toNat / 8 < c.lsize) :
    c.tail = (c.pos.toNat / 8, c.plen - c.pos.toNat / 8) := if_neg (Nat.not_le.2 h)

/-- Settles O52: the tail past `LSIZE` and before it; there start and length fit the response bus. -/
theorem rembytesAnswersTail : Obligations.RembytesAnswersTail := by
  intro s i c h hc
  refine ⟨BitVec.ofNat 64 c.tail.1, BitVec.ofNat 64 c.tail.2, State.withCursor_holds hc _, fun hpast => ?_,
    fun hin => ?_⟩
  · rw [Context.tail_of_past hpast]
    exact ⟨rfl, rfl⟩
  · have hplen := (h.cursorOk_of_holds hc).plen_eq_max
    have hlt : c.lsize * 8 < 2 ^ 63 := h.lbits_lt hc.1
    rw [Context.tail_of_inside hin, BitVec.toNat_ofNat, BitVec.toNat_ofNat, Nat.mod_eq_of_lt (by omega),
      Nat.mod_eq_of_lt (by omega)]
    exact ⟨rfl, by omega⟩

/-! ## Overflow (R140, 10_state R34) -/

/-- The adder passes the logical end exactly when the sum does: it saturates past every logical size that fits. -/
theorem Context.ovf_advance_iff {c : Context} (hl : c.lbits < 2 ^ 63) (n : Nat) :
    (c.advance n).ovf = true ↔ c.lbits < c.pos.toNat + n := by
  rw [Context.ovf_iff, Context.advance_pos, toNat_adv, Context.advance_lsize, ← Context.lbits]
  omega

/-- Settles O59: within a lifetime the size stays and only `RESET` lowers the position; a command that consumes bits
leaves the advanced cursor. -/
theorem overflowSticksUntilRewound : Obligations.OverflowSticksUntilRewound := by
  refine ⟨fun i s t k c hc hovf hinit hpeek hreset he => ?_, fun i s t c hw h hc hpast hinit hpeek hreset he => ?_⟩
  · obtain ⟨c', hc', hsame, hle⟩ := onlyPositionChangesInLifetime i s t k c hc hinit hpeek he
    have hsize : c'.lsize = c.lsize := by rw [hsame]
    have hpos := hle hreset
    rw [Context.ovf_iff] at hovf
    exact ⟨c', hc', Context.ovf_iff.2 (by omega)⟩
  · obtain ⟨as, data, aux, hadv⟩ := exec_advances hw hc hinit hpeek hreset
    cases hadv.symm.trans he
    exact ⟨_, State.Holds.setCtx (s := s.logReads as) hc hc.2, (Context.ovf_advance_iff (h.lbits_lt hc.1) _).2 hpast⟩

/-! ## Responses and the own buffer (R135) -/

/-- An undisturbed cursor whose buffer holds the same bytes in both states reads alike: an aliased physical buffer has
no bytes but those, an owned one is its `PAD`. -/
theorem Context.readsAlike_of_bufferByte {s u : State} {c : Context} (hc : c.cursorOk) (hs : s.Undisturbed c)
    (hu : u.Undisturbed c) (hbytes : ∀ j, j < c.lsize → s.bufferByte c j = u.bufferByte c j) : c.ReadsAlike s u := by
  cases hown : c.own with
  | true => exact Context.readsAlike_of_own hown s u
  | false =>
    intro j hj d e
    have hsize : j < c.lsize := by
      have hplen := hc.plen_eq_max
      have h8 := Context.not_own_iff.1 hown
      omega
    rw [State.physByte_undisturbed hs (.inr hsize), State.physByte_undisturbed hu (.inr hsize), hbytes j hsize]

/-- Settles O57: a command depends on its cursor and on how its buffer reads, and the buffer reads alike. -/
theorem responsesDependOnOwnContext : Obligations.ResponsesDependOnOwnContext :=
  fun _ _ _ _ h hcs hcu hs hu hbytes hinit hpeek =>
    exec_answersAlike hcs hcu (Context.readsAlike_of_bufferByte (h.cursorOk_of_holds hcs) hs hu hbytes) hinit hpeek

end Sys2Proof.Machine
end

section
/-! PROOFS. The illegal encodings, field by field (30_encoding R63, 60_exceptions R161). -/

namespace Sys2Proof

/-! ## The two decode errors, by the rows of the opcode map -/

theorem find?_rows_eq_none_iff {o : BitVec 8} :
    rows.find? (fun q => q.opc == o) = none ↔ o ∉ rows.map Row.opc := by
  simp

theorem decode_eq_unknownOpcode_iff {t : Transaction} :
    decode t = .error .unknownOpcode ↔ opcField t.cmd ∉ rows.map Row.opc := by
  rw [← find?_rows_eq_none_iff, decode]
  cases rows.find? (fun r => r.opc == opcField t.cmd) with
  | none => exact iff_of_true rfl rfl
  | some r => cases hs : r.selects t.cmd <;> simp [hs]

theorem decode_eq_mustBeZero_iff {t : Transaction} :
    decode t = .error .mustBeZero ↔ ∃ r ∈ rows, r.opc = opcField t.cmd ∧ r.selects t.cmd = false := by
  constructor
  · intro h
    unfold decode at h
    split at h
    case h_1 => cases h
    case h_2 r hr =>
      obtain ⟨hmem, hopc⟩ := find?_rows_eq_some_iff.1 hr
      cases hs : r.selects t.cmd with
      | true => rw [hs] at h; cases h
      | false => exact ⟨r, hmem, hopc, hs⟩
  · rintro ⟨r, hmem, hopc, hs⟩
    rw [decode, find?_rows_eq_some_iff.2 ⟨hmem, hopc⟩]
    simp [hs]

/-! ## The must-be-zero fields of a row, by its format and by its opcode (R63) -/

/-- A row turns away a word of its opcode for a field that its format requires to be zero. -/
theorem Row.not_selects_iff {r : Row} {w : CmdWord} (hopc : r.opc = opcField w) :
    r.selects w = false ↔
      w.extractLsb' 24 8 ≠ 0 ∨ w.extractLsb' 14 2 ≠ 0 ∨ (r.format ≠ .p ∧ w.extractLsb' 20 4 ≠ 0) ∨
        ((r.format = .n ∨ r.format = .p) ∧ w.extractLsb' 8 6 ≠ 0) ∨
        (r.format = .w32 ∧ w.extractLsb' 13 1 ≠ 0) := by
  have hown : w.extractLsb' 0 8 = r.opc := hopc.symm
  rw [← Bool.not_eq_true, Row.selects_iff]
  cases r.format with
  | n => rw [mask_n_iff]; grind
  | w32 => rw [mask_w32_iff]; grind
  | w64 => rw [mask_w64_iff]; grind
  | p => rw [mask_p_iff]; grind

theorem format_ne_p_iff_opc : ∀ r ∈ rows, r.format ≠ .p ↔ r.opc ≠ 0x03 := by decide

theorem format_n_or_p_iff_opc :
    ∀ r ∈ rows, (r.format = .n ∨ r.format = .p) ↔ r.opc ∉ ([0x08, 0x09, 0x0A, 0x0B] : List (BitVec 8)) := by decide

theorem format_w32_iff_opc : ∀ r ∈ rows, r.format = .w32 ↔ r.opc ∈ ([0x08, 0x09] : List (BitVec 8)) := by decide

theorem not_selects_iff_of_mem_rows {r : Row} {w : CmdWord} (hr : r ∈ rows) (hopc : r.opc = opcField w) :
    r.selects w = false ↔
      w.extractLsb' 24 8 ≠ 0 ∨ w.extractLsb' 14 2 ≠ 0 ∨ (opcField w ≠ 0x03 ∧ w.extractLsb' 20 4 ≠ 0) ∨
        (opcField w ∉ ([0x08, 0x09, 0x0A, 0x0B] : List (BitVec 8)) ∧ w.extractLsb' 8 6 ≠ 0) ∨
        (opcField w ∈ ([0x08, 0x09] : List (BitVec 8)) ∧ w.extractLsb' 13 1 ≠ 0) := by
  rw [Row.not_selects_iff hopc, format_ne_p_iff_opc r hr, format_n_or_p_iff_opc r hr, format_w32_iff_opc r hr, hopc]

/-- Settles O3: the listed opcodes are those of the rows, and of a row's opcode the illegal words are those that the
row turns away. -/
theorem decoderRejectsExactlyIllegalWords : Obligations.DecoderRejectsExactlyIllegalWords := by
  intro t
  refine ⟨decode_eq_unknownOpcode_iff, decode_eq_mustBeZero_iff.trans ?_⟩
  constructor
  · rintro ⟨r, hr, hopc, hs⟩
    exact ⟨List.mem_map.2 ⟨r, hr, hopc⟩, (not_selects_iff_of_mem_rows hr hopc).1 hs⟩
  · rintro ⟨hlisted, hres⟩
    obtain ⟨r, hr, hopc⟩ := List.mem_map.1 (show opcField t.cmd ∈ rows.map Row.opc from hlisted)
    exact ⟨r, hr, hopc, (not_selects_iff_of_mem_rows hr hopc).2 hres⟩

end Sys2Proof
end

section
/-! PROOFS. The exceptions: each command reports one status, by priority, and an error changes nothing (60_exceptions
R161 to R165). -/

namespace Sys2Proof.Machine

/-! ## Nothing stops the block (R164, R168) -/

theorem step_command {s : State} {t : Transaction} {rest : List HostEvent} (hq : s.inbox = .command t :: rest)
    (hr : s.rst = false) : step s = State.accept { s with inbox := rest } t :=
  (step_cons hq).trans (State.offer_of_not_rst (s := { s with inbox := rest }) hr t)

theorem State.offer_next (s : State) (t : Transaction) : ∃ u, s.offer t = .next u := by
  cases hr : s.rst with
  | true => exact ⟨s, State.offer_of_rst hr t⟩
  | false =>
    rw [State.offer_of_not_rst hr]
    cases hd : decode t with
    | error e => exact ⟨_, State.accept_of_decode_error hd s⟩
    | ok i =>
      rw [State.accept_of_decode hd]
      exact (exec_cases i s).imp fun _ h => h.1

theorem State.handle_next (s : State) (e : HostEvent) : ∃ u, s.handle e = .next u := by
  cases e with
  | command t => exact s.offer_next t
  | hostWrite | writesVisible | rstAssert | rstDeassert => exact ⟨_, rfl⟩
  | cutCommand t k =>
    obtain ⟨u, hu⟩ := s.offer_next t
    exact ⟨_, by rw [State.handle, State.cutOff, hu]⟩

/-- Settles O11: each of the host's events answers a next state, and no event leaves the state as it is. -/
theorem stepAlwaysNext : Obligations.StepAlwaysNext := by
  have hidle : ∀ s : State, s.inbox = [] → step s = .next s := fun s hq => by rw [step, hq]
  refine ⟨fun s => ?_, hidle⟩
  cases hq : s.inbox with
  | nil => exact ⟨s, hidle s hq⟩
  | cons e rest =>
    rw [step_cons hq]
    exact State.handle_next _ e

/-- Settles O10: the word is accepted and raises `ILLEGAL`. -/
theorem illegalWordOnlyResponds : Obligations.IllegalWordOnlyResponds :=
  fun _ _ _ _ hq hr hd => (step_command hq hr).trans (State.accept_of_decode_error hd _)

/-! ## The outcome of each check (R162, R163) -/

theorem State.holds_of_not_holdsNone {s : State} {i : CtxId} (h : ¬ s.HoldsNone i) : ∃ c, s.Holds i c :=
  (s.holds_or_holdsNone i).resolve_right h

/-- A width that no command word carries (log 13) is turned away before the context is looked at. -/
theorem exec_of_not_wf {i : Instr} (hw : i.wf = false) (s : State) : exec i s = .next (s.deliver ⟨.illegal, 0, 0⟩) := by
  cases i with
  | rdu32 | rds32 | rdu64 | rds64 => exact State.withWidth_illegal hw _ _
  | init | reset | peek | skip | rdbit | rdle16 | rdle32 | rdle64 | pos | rembits | rembytes | check => cases hw

theorem exec_of_noCursorFor {i : Instr} {s : State} (hw : i.wf = true) (hn : noCursorFor i s) :
    exec i s = .next (s.deliver ⟨.noctx, 0, 0⟩) := by
  cases i with
  | init k => rw [exec, execInit, State.ctx?_eq_none.2 hn]; rfl
  | peek d q =>
    rw [exec, execPeek]
    cases hd : s.ctx? d with
    | none => rfl
    | some c =>
      have hsrc : s.HoldsNone q := hn.resolve_left (Nat.not_le.2 (State.lt_of_ctx? hd))
      exact State.withCursor_holdsNone hsrc _
  | rdu32 | rds32 | rdu64 | rds64 => exact (State.withWidth_legal hw _ _).trans (State.withCursor_holdsNone hn _)
  | reset | skip | rdbit | rdle16 | rdle32 | rdle64 | pos | rembits | rembytes | check =>
    exact State.withCursor_holdsNone hn _

theorem exec_init_of_oversize {s : State} {k : CtxId} {len : Word} (hk : k.val < s.nCtx)
    (hl : 2 ^ s.cfg.lenW ≤ len.toNat) (base : Word) :
    exec (.init k base len) s = .next (s.deliver ⟨.range, 0, 0⟩) := by
  obtain ⟨c, hc⟩ := Option.isSome_iff_exists.1 (State.ctx?_isSome_iff.2 hk)
  have hlong : s.lenFits len = false := decide_eq_false (Nat.not_lt.2 hl)
  rw [exec, execInit, hc, hlong]
  rfl

/-- Only `INIT` has a range to check, and its context exists once `NOCTX` is ruled out. -/
theorem init_of_outOfRange {i : Instr} {s : State} (hn : ¬ noCursorFor i s) (ho : outOfRange i s) :
    ∃ k base len, i = .init k base len ∧ k.val < s.nCtx ∧ 2 ^ s.cfg.lenW ≤ len.toNat := by
  cases i with
  | init k base len => exact ⟨k, base, len, rfl, Nat.not_le.1 hn, ho⟩
  | reset | peek | skip | rdu32 | rds32 | rdu64 | rds64 | rdbit | rdle16 | rdle32 | rdle64 | pos | rembits | rembytes
  | check => cases ho

/-- A command that passes every check completes with `OK`. -/
theorem exec_of_checks {i : Instr} {s : State} (hw : i.wf = true) (hn : ¬ noCursorFor i s) (ho : ¬ outOfRange i s) :
    ∃ (u : State) (data aux : Word), exec i s = .next (u.deliver ⟨.ok, data, aux⟩) ∧ u.responses = s.responses := by
  cases i with
  | init k base len => exact ⟨_, 0, 0, exec_init_of_fits (Nat.not_le.1 hn) (Nat.not_le.1 ho) base, rfl⟩
  | peek d q =>
    obtain ⟨hd, hq⟩ := not_or.1 hn
    obtain ⟨c, hc⟩ := State.holds_of_not_holdsNone hq
    exact ⟨_, 0, 0, exec_peek_of_holds (Nat.not_le.1 hd) hc, rfl⟩
  | reset k =>
    obtain ⟨c, hc⟩ := State.holds_of_not_holdsNone hn
    exact ⟨_, 0, 0, State.withCursor_holds hc _, rfl⟩
  | skip | rdu32 | rds32 | rdu64 | rds64 | rdbit | rdle16 | rdle32 | rdle64 | pos | rembits | rembytes | check =>
    obtain ⟨c, hc⟩ := State.holds_of_not_holdsNone hn
    obtain ⟨as, data, aux, he⟩ := exec_advances hw hc nofun nofun nofun
    exact ⟨_, data, aux, he, rfl⟩

/-! ## The status of a command, by priority (R165) -/

/-- The status a command reports: that of the first check it fails, `OK` where it fails none. -/
inductive Reports (i : Instr) (s : State) : Status → Prop where
  | illegal (hw : i.wf = false) : Reports i s .illegal
  | noctx (hw : i.wf = true) (hn : noCursorFor i s) : Reports i s .noctx
  | range (hw : i.wf = true) (hn : ¬ noCursorFor i s) (ho : outOfRange i s) : Reports i s .range
  | ok (hw : i.wf = true) (hn : ¬ noCursorFor i s) (ho : ¬ outOfRange i s) : Reports i s .ok

theorem exec_responds (i : Instr) (s : State) :
    ∃ t r, exec i s = .next t ∧ t.responses = s.responses ++ [r] ∧ Reports i s r.status := by
  cases hw : i.wf with
  | false => exact ⟨_, _, exec_of_not_wf hw s, rfl, .illegal hw⟩
  | true =>
    by_cases hn : noCursorFor i s
    case pos => exact ⟨_, _, exec_of_noCursorFor hw hn, rfl, .noctx hw hn⟩
    case neg =>
      by_cases ho : outOfRange i s
      case pos =>
        obtain ⟨k, base, len, rfl, hk, hl⟩ := init_of_outOfRange hn ho
        exact ⟨_, _, exec_init_of_oversize hk hl base, rfl, .range hw hn ho⟩
      case neg =>
        obtain ⟨u, data, aux, he, hu⟩ := exec_of_checks hw hn ho
        exact ⟨_, ⟨.ok, data, aux⟩, he, by rw [State.deliver_responses, hu], .ok hw hn ho⟩

theorem exec_reports {i : Instr} {s t : State} {r : Response} (he : exec i s = .next t)
    (hr : t.responses = s.responses ++ [r]) : Reports i s r.status := by
  obtain ⟨u, q, hu, hq, hrep⟩ := exec_responds i s
  cases hu.symm.trans he
  cases List.append_cancel_left (hq.symm.trans hr)
  exact hrep

/-- Settles O24: the check fails with that effect, and only it reports `NOCTX`. -/
theorem noctxExactlyWithoutCursor : Obligations.NoctxExactlyWithoutCursor := by
  refine fun i s hw => ⟨exec_of_noCursorFor hw, fun t r he hr hst => ?_⟩
  have hrep := exec_reports he hr
  rw [hst] at hrep
  cases hrep with
  | noctx _ hn => exact hn

/-- Settles O25: the check fails with that effect, and only it, which only `INIT` makes, reports `RANGE`. -/
theorem rangeExactlyOversizeInit : Obligations.RangeExactlyOversizeInit := by
  refine ⟨fun s k base len hk hl => exec_init_of_oversize hk hl base, fun i s t r he hr hst => ?_⟩
  have hrep := exec_reports he hr
  rw [hst] at hrep
  cases hrep with
  | range _ hn ho => exact init_of_outOfRange hn ho

/-! ## Errors are precise (R164) -/

theorem Effect.eq_deliver_of_error {i : Instr} {s t : State} {r : Response} (h : Effect i s t)
    (hr : t.responses = s.responses ++ [r]) (herr : r.status ≠ .ok) : t = s.deliver r ∧ r.data = 0 ∧ r.aux = 0 := by
  cases h with
  | error e => rw [State.deliver_response_eq (s := s) rfl hr]; exact ⟨rfl, rfl, rfl⟩
  | query | read | skip | rewind | copy | construct =>
    rw [State.deliver_response_eq (s := s) rfl hr] at herr; exact absurd rfl herr

/-- An accepted transaction, legal or not, that completes with an error only responds. -/
theorem State.accept_eq_deliver_of_error {s u : State} {t : Transaction} {r : Response} (h : s.accept t = .next u)
    (hr : u.responses = s.responses ++ [r]) (herr : r.status ≠ .ok) : u = s.deliver r ∧ r.data = 0 ∧ r.aux = 0 := by
  cases hd : decode t with
  | error e =>
    rw [State.accept_of_decode_error hd] at h
    cases h
    rw [State.deliver_response_eq (s := s) rfl hr]
    exact ⟨rfl, rfl, rfl⟩
  | ok i =>
    rw [State.accept_of_decode hd] at h
    exact (exec_effect h).eq_deliver_of_error hr herr

/-- Settles O26: a command offered in reset has no response, an accepted one that fails has its response only. -/
theorem errorsChangeNothing : Obligations.ErrorsChangeNothing := by
  intro s u t rest r hq hs hr herr
  by_cases hrst : s.rst = true
  case pos =>
    rw [step_cons hq] at hs
    cases (State.offer_of_rst (s := { s with inbox := rest }) hrst t).symm.trans hs
    exact absurd hr (by simp)
  case neg =>
    rw [step_command hq (Bool.eq_false_iff.2 hrst)] at hs
    exact State.accept_eq_deliver_of_error hs hr herr

/-! ## The priority through a step (R165) -/

theorem noCursorFor_withInbox (i : Instr) (s : State) (q : List HostEvent) :
    noCursorFor i { s with inbox := q } ↔ noCursorFor i s := by
  cases i <;> exact Iff.rfl

theorem outOfRange_withInbox (i : Instr) (s : State) (q : List HostEvent) :
    outOfRange i { s with inbox := q } ↔ outOfRange i s := by
  cases i <;> exact Iff.rfl

/-- The four reports exclude each other; a command that was decoded is not illegal. -/
theorem Reports.status_by_priority {i : Instr} {s : State} {e : Status} (h : Reports i s e) (hw : i.wf = true) :
    (noCursorFor i s → e = .noctx) ∧ (¬ noCursorFor i s → outOfRange i s → e = .range) ∧
      (¬ noCursorFor i s → ¬ outOfRange i s → e = .ok) := by
  cases h with
  | illegal hf => cases hw.symm.trans hf
  | noctx _ hn => exact ⟨fun _ => rfl, fun h => absurd hn h, fun h => absurd hn h⟩
  | range _ hn ho => exact ⟨fun h => absurd h hn, fun _ _ => rfl, fun _ h => absurd ho h⟩
  | ok _ hn ho => exact ⟨fun h => absurd h hn, fun _ h => absurd h ho, fun _ _ => rfl⟩

/-- An accepted transaction has one response: `ILLEGAL` for an illegal word, else what its command reports. -/
theorem State.accept_responds (s : State) (t : Transaction) :
    ∃ u r, s.accept t = .next u ∧ u.responses = s.responses ++ [r] ∧
      (∀ e, decode t = .error e → r.status = .illegal) ∧ ∀ i, decode t = .ok i → Reports i s r.status := by
  cases hd : decode t with
  | error e => exact ⟨_, _, State.accept_of_decode_error hd s, rfl, fun _ _ => rfl, nofun⟩
  | ok i =>
    obtain ⟨u, r, hu, hr, hrep⟩ := exec_responds i s
    refine ⟨u, r, (State.accept_of_decode hd s).trans hu, hr, nofun, ?_⟩
    rintro _ ⟨⟩
    exact hrep

/-- Settles O27: the accepted transaction's one response, whose error leaves nothing else, reports by priority. -/
theorem statusByPriority : Obligations.StatusByPriority := by
  intro s t rest hq hrst
  obtain ⟨u, r, hu, hr, hillegal, hrep⟩ := State.accept_responds { s with inbox := rest } t
  refine ⟨u, r, (step_command hq hrst).trans hu, hr, hillegal,
    fun herr => (State.accept_eq_deliver_of_error hu hr herr).1, fun i hd => ?_⟩
  have hpriority := (hrep i hd).status_by_priority (encodeInvertsDecode t i hd).1
  rwa [noCursorFor_withInbox, outOfRange_withInbox] at hpriority

end Sys2Proof.Machine
end

section
/-! PROOFS. Reset, a command cut off by it, the response of every other command, and host writes that become visible
(70_reset_and_hazards R180 to R187). -/

namespace Sys2Proof.Machine

/-! ## The state after hardware reset (R180) -/

theorem State.holdsNone_of_invalid {s : State} (h : ∀ c ∈ s.bank, c.valid = false) (i : CtxId) : s.HoldsNone i := by
  cases hc : s.ctx? i with
  | none => exact .inl (State.ctx?_eq_none.1 hc)
  | some c => exact .inr ⟨c, hc, h c (State.mem_of_ctx? hc)⟩

theorem State.resetWith_nCtx (p : Config.Params) : (State.resetWith p).nCtx = p.nCtx := List.length_replicate

theorem State.eq_afterReset_of_mem {p : Config.Params} {c : Context} (hc : c ∈ (State.resetWith p).bank) :
    c = Context.afterReset := List.eq_of_mem_replicate hc

theorem Context.afterReset_fits (w : Config.Widths) : Context.afterReset.fits w :=
  ⟨Nat.two_pow_pos _, Nat.two_pow_pos _, Nat.two_pow_pos _⟩

/-- Settles O14: the bank is `N_CTX` contexts with `VALID` 0, and the records are empty. -/
theorem resetHoldsNoCursor : Obligations.ResetHoldsNoCursor := by
  refine fun p => ⟨State.resetWith_nCtx p, State.holdsNone_of_invalid fun c hc => ?_, rfl, rfl, rfl⟩
  rw [State.eq_afterReset_of_mem hc]
  rfl

/-- Settles O21: every context is the reset one, which fits and holds no cursor, and memory and writes are empty. -/
theorem resetMeetsInvariant : Obligations.ResetMeetsInvariant := fun p hp =>
  { params := by rw [State.params, State.resetWith_nCtx]; exact hp
    fits := fun c hc => State.eq_afterReset_of_mem hc ▸ Context.afterReset_fits p.widths
    cursors := fun c hc hv => by rw [State.eq_afterReset_of_mem hc] at hv; cases hv
    noCursorInReset := nofun
    memWf := rfl
    memBelow := rfl
    pendingBelow := rfl }

/-! ## The port `RST` (R180, R181) -/

theorem State.hardwareReset_holdsNone (s : State) : ∀ i : CtxId, s.hardwareReset.HoldsNone i :=
  State.holdsNone_of_invalid fun c hc => by
    obtain ⟨k, rfl⟩ := State.mem_hardwareReset_bank hc
    rfl

@[simp] theorem State.hardwareReset_memByte (s : State) (a : Nat) : s.hardwareReset.memByte a = s.memByte a := rfl

/-- Settles O15: the step is a hardware reset, whose contexts are all invalid and which writes no port. -/
theorem rstInvalidatesEveryContext : Obligations.RstInvalidatesEveryContext := fun _ _ hq =>
  ⟨_, step_cons hq, rfl, State.hardwareReset_nCtx _, State.hardwareReset_holdsNone _, rfl, rfl,
    fun a => State.hardwareReset_memByte _ a, rfl, rfl, rfl⟩

/-- Settles O16: in reset the offer is dropped (log 6); deasserting `RST` ends the reset and does nothing else. -/
theorem noCommandAcceptedInReset : Obligations.NoCommandAcceptedInReset :=
  ⟨fun s t rest hq hr => (step_cons hq).trans (State.offer_of_rst (s := { s with inbox := rest }) hr t),
    fun _ _ hq => step_cons hq⟩

/-! ## A command cut off by `RST` (R181) -/

/-- Of the whole command, which makes the reads `made`, a cut leaves the first `k` reads and the draws (log 7). -/
theorem State.cutOff_of_offer {s v : State} {t : Transaction} {made : List Nat} (hv : s.offer t = .next v)
    (hmade : v.reads = s.reads ++ made) (k : Nat) :
    s.cutOff t k = .next (State.hardwareReset { s with reads := s.reads ++ made.take k, draws := v.draws }) := by
  simp only [State.cutOff, hv, hmade, List.drop_left]

/-- Settles O17: the whole command only reads, and the cut is a hardware reset of the state before it with the first `k`
reads made. -/
theorem rstCutsCommandOff : Obligations.RstCutsCommandOff := by
  intro s v t k rest hq _ hv
  have hoffer : State.offer { s with inbox := rest } t = .next v :=
    (step_cons (s := { s with inbox := .command t :: rest }) rfl).symm.trans hv
  obtain ⟨made, hmade⟩ := (State.OnlyReads.of_offer hoffer).reads
  exact ⟨_, made, (step_cons hq).trans (State.cutOff_of_offer hoffer hmade k), hmade, rfl, rfl, rfl,
    State.hardwareReset_holdsNone _, rfl, fun a => State.hardwareReset_memByte _ a⟩

/-! ## Host writes become visible (R183, 20_memory R52) -/

theorem Memory.read_writeAll_other {a : Nat} {ws : List Host.Cell} (h : ∀ w ∈ ws, w.1 ≠ a) (m : List Host.Cell) :
    Memory.read (Memory.writeAll m ws) a = Memory.read m a := by
  induction ws generalizing m with
  | nil => rfl
  | cons w ws ih =>
    obtain ⟨hw, hws⟩ := List.forall_mem_cons.1 h
    exact (ih hws (Memory.write m w.1 w.2)).trans (Memory.read_write_other m w.2 hw.symm)

/-- The last write to an address stays: whatever is written before it leaves memory in canonical form. -/
theorem Memory.read_writeAll_last {n a : Nat} {m early late : List Host.Cell} {b : Byte} (hm : Memory.wf m = true)
    (hbelow : Memory.below n m = true) (hearly : Memory.below n early = true) (hlate : ∀ w ∈ late, w.1 ≠ a) :
    Memory.read (Memory.writeAll m (early ++ (a, b) :: late)) a = b := by
  have hsplit : Memory.writeAll m (early ++ (a, b) :: late) =
      Memory.writeAll (Memory.write (Memory.writeAll m early) a b) late := List.foldl_append
  rw [hsplit, Memory.read_writeAll_other hlate]
  exact Memory.read_write_same b (Memory.wf_writeAll hm hbelow hearly).1

theorem State.makeVisible_memByte_other {s : State} {x : Nat} (h : ∀ w ∈ s.pending, w.1 ≠ s.addr x) :
    s.makeVisible.memByte x = s.memByte x := Memory.read_writeAll_other h s.mem

theorem State.Inv.makeVisible_memByte_last {s : State} (h : s.Inv) {x : Nat} {early late : List Host.Cell} {b : Byte}
    (hp : s.pending = early ++ (s.addr x, b) :: late) (hlate : ∀ w ∈ late, w.1 ≠ s.addr x) :
    s.makeVisible.memByte x = b := by
  have hearly : Memory.below (2 ^ s.cfg.addrW) early = true := (Memory.below_append.1 (hp ▸ h.pendingBelow)).1
  rw [State.memByte, State.makeVisible_mem, hp]
  exact Memory.read_writeAll_last h.memWf h.memBelow hearly hlate

/-- Settles O18: issuing a write only queues it; making the queue visible keeps the last write of each byte. -/
theorem hostWritesBecomeVisible : Obligations.HostWritesBecomeVisible := by
  refine ⟨fun s a b rest hq => ⟨_, step_cons hq, fun _ => rfl, rfl, rfl, rfl, rfl⟩, fun s rest h hq => ?_⟩
  have hinv : State.Inv { s with inbox := rest } := h.withInbox rest
  exact ⟨_, step_cons hq, rfl, rfl, rfl, fun x hx => State.makeVisible_memByte_other (s := { s with inbox := rest }) hx,
    fun x early late b hp hlate => hinv.makeVisible_memByte_last hp hlate⟩

/-! ## One response per command (R187) -/

/-- An accepted transaction, legal or not, has the frame of a command. -/
theorem State.accept_samePorts {s u : State} {t : Transaction} (h : s.accept t = .next u) : s.SamePorts u := by
  cases hd : decode t with
  | error e => rw [State.accept_of_decode_error hd] at h; cases h; exact (s.onlyContext_deliver 0 _).1
  | ok i => rw [State.accept_of_decode hd] at h; exact (exec_effect h).onlyContext.1

/-- Settles O12: the accepted transaction has one response, and leaves the queue behind it as it is. -/
theorem oneResponsePerCommand : Obligations.OneResponsePerCommand := by
  intro s t rest hq hrst
  obtain ⟨u, r, hu, hr, -, -⟩ := State.accept_responds { s with inbox := rest } t
  obtain ⟨-, -, hinbox, -⟩ := State.accept_samePorts hu
  exact ⟨u, r, (step_command hq hrst).trans hu, hr, hinbox⟩

end Sys2Proof.Machine
end
